-- ==== Sys2Proof/Word.lean ====
section
/-! DEFINITION. The words of the core: bytes, instruction words, register indices, the other fields of an instruction
(spec/00_scope.md R5, R9, R10). Bit 0 is the least significant bit of every value; every value is unsigned (R9). -/

namespace Sys2Proof

/-- A byte: a general register, a memory cell, a timer, the immediate `kk` (R5, R9). -/
abbrev Byte := BitVec 8

/-- 16 bits: an instruction word, PC, I, a stack slot (R5). -/
abbrev Word := BitVec 16

/-- The index of a general register, a 4-bit instruction field (R20, R71). -/
abbrev RegIdx := BitVec 4

/-- A 4-bit count or key index: the field `n`, a key of the keypad (R71, R34). -/
abbrev Nibble := BitVec 4

/-- The 12-bit address field `nnn` (R71). -/
abbrev Addr := BitVec 12

/-- The 2048 one-bit cells of the display buffer; cell `c` is bit `c` (R32, R228; notes/assumptions/8.md). -/
abbrev Frame := BitVec 2048

/-- The 16 one-bit cells of a key vector; key `k` is bit `k` (R34, R35, R228; notes/assumptions/8.md). -/
abbrev KeyVec := BitVec 16

end Sys2Proof
end

