-- ==== Sys2Proof/Config.lean ====
section
/-! DEFINITION. What the hardware fixes (spec/00_scope.md R5) and what the spec leaves free (R6). -/

namespace Sys2Proof.Config

/-- MEM_SIZE, the number of memory cells (R5, R29). -/
abbrev memSize : Nat := 4096

/-- PROGRAM_BASE, the load address and the reset value of PC (R5, R241). -/
abbrev programBase : Nat := 0x200

/-- MAX_PROGRAM, the longest program image in bytes (R5, R247). -/
abbrev maxProgram : Nat := 3584

/-- GLYPH_BASE, the address of the glyph table (R5, R30). -/
abbrev glyphBase : Nat := 0x050

/-- The number of bytes of the glyph table (R5, R30). -/
abbrev glyphSize : Nat := 80

/-- The number of columns of the display (R5, R170). -/
abbrev columns : Nat := 64

/-- The number of rows of the display (R5, R170). -/
abbrev rows : Nat := 32

/-- The default of GLYPH: the table of R31, top row first, digits 0 to F in order.
PRESUMED (the spec marks it as general knowledge: the CHIP-8 family's font), unsafe: notes/assumptions/4.md.
`State` holds the glyph cells, so what is proved of every state holds for every GLYPH. -/
def defaultGlyph : Vector Byte glyphSize :=
  #v[0xF0, 0x90, 0x90, 0x90, 0xF0,  0x20, 0x60, 0x20, 0x20, 0x70,
     0xF0, 0x10, 0xF0, 0x80, 0xF0,  0xF0, 0x10, 0xF0, 0x10, 0xF0,
     0x90, 0x90, 0xF0, 0x10, 0x10,  0xF0, 0x80, 0xF0, 0x10, 0xF0,
     0xF0, 0x80, 0xF0, 0x90, 0xF0,  0xF0, 0x10, 0x20, 0x40, 0x40,
     0xF0, 0x90, 0xF0, 0x90, 0xF0,  0xF0, 0x90, 0xF0, 0x10, 0xF0,
     0xF0, 0x90, 0xF0, 0x90, 0x90,  0xE0, 0x90, 0xE0, 0x90, 0xE0,
     0xF0, 0x80, 0x80, 0x80, 0xF0,  0xE0, 0x90, 0x90, 0x90, 0xE0,
     0xF0, 0x80, 0xF0, 0x80, 0xF0,  0xF0, 0x80, 0xF0, 0x80, 0x80]

/-- The byte on `rnd_in` at the `k`-th executed RND: any value 0 to 255, under no law (R6, R143, D17).
A FREE VALUE, safe: notes/assumptions/2.md. It has no body, so no proof can know it. -/
opaque rndIn : Nat → Byte

/-- CLS_RAISES_REDRAW: whether CLS sets the redraw flag. OPEN in the spec (R6, R172, D13), so it is a free constant and
a claim about REDRAW after CLS holds for both values; safe: notes/assumptions/3.md. -/
opaque clsRaisesRedraw : Bool

end Sys2Proof.Config
end

