-- ==== Sys2Proof/Syntax.lean ====
section
/-! DEFINITION. The instructions: one constructor per row of spec/opcode_table.json, in the order of spec/30_encoding.md
R76, each with the fields of its pattern (R71, R72). -/

namespace Sys2Proof

/-- The 34 instructions (R76). A field has the width the encoding gives it (R71, R73), so every term is an instruction
the hardware has. `shr` and `shl` keep the `y` field, which is in the encoding and which the operation ignores. -/
inductive Instr where
  /-- `00E0` CLS, R172 -/
  | cls
  /-- `00EE` RET, R113 -/
  | ret
  /-- `1nnn` JP nnn, R111 -/
  | jp (nnn : Addr)
  /-- `2nnn` CALL nnn, R112 -/
  | call (nnn : Addr)
  /-- `3xkk` SE Vx, kk, R116 -/
  | seImm (x : RegIdx) (kk : Byte)
  /-- `4xkk` SNE Vx, kk, R117 -/
  | sneImm (x : RegIdx) (kk : Byte)
  /-- `5xy0` SE Vx, Vy, R118 -/
  | seReg (x y : RegIdx)
  /-- `6xkk` LD Vx, kk, R131 -/
  | ldImm (x : RegIdx) (kk : Byte)
  /-- `7xkk` ADD Vx, kk, R132 -/
  | addImm (x : RegIdx) (kk : Byte)
  /-- `8xy0` LD Vx, Vy, R133 -/
  | ldReg (x y : RegIdx)
  /-- `8xy1` OR Vx, Vy, R134 -/
  | orReg (x y : RegIdx)
  /-- `8xy2` AND Vx, Vy, R135 -/
  | andReg (x y : RegIdx)
  /-- `8xy3` XOR Vx, Vy, R136 -/
  | xorReg (x y : RegIdx)
  /-- `8xy4` ADD Vx, Vy, R137 -/
  | addReg (x y : RegIdx)
  /-- `8xy5` SUB Vx, Vy, R138 -/
  | subReg (x y : RegIdx)
  /-- `8xy6` SHR Vx, R139 -/
  | shr (x y : RegIdx)
  /-- `8xy7` SUBN Vx, Vy, R140 -/
  | subnReg (x y : RegIdx)
  /-- `8xyE` SHL Vx, R141 -/
  | shl (x y : RegIdx)
  /-- `9xy0` SNE Vx, Vy, R119 -/
  | sneReg (x y : RegIdx)
  /-- `Annn` LD I, nnn, R151 -/
  | ldI (nnn : Addr)
  /-- `Bnnn` JP V0, nnn, R114 -/
  | jpV0 (nnn : Addr)
  /-- `Cxkk` RND Vx, kk, R142 -/
  | rnd (x : RegIdx) (kk : Byte)
  /-- `Dxyn` DRW Vx, Vy, n, R174 -/
  | drw (x y : RegIdx) (n : Nibble)
  /-- `Ex9E` SKP Vx, R194 -/
  | skp (x : RegIdx)
  /-- `ExA1` SKNP Vx, R195 -/
  | sknp (x : RegIdx)
  /-- `Fx07` LD Vx, DT, R191 -/
  | ldVxDt (x : RegIdx)
  /-- `Fx0A` LD Vx, K, R198 -/
  | ldVxK (x : RegIdx)
  /-- `Fx15` LD DT, Vx, R192 -/
  | ldDtVx (x : RegIdx)
  /-- `Fx18` LD ST, Vx, R193 -/
  | ldStVx (x : RegIdx)
  /-- `Fx1E` ADD I, Vx, R153 -/
  | addI (x : RegIdx)
  /-- `Fx29` LD F, Vx, R155 -/
  | ldF (x : RegIdx)
  /-- `Fx33` LD B, Vx, R157 -/
  | ldB (x : RegIdx)
  /-- `Fx55` LD [I], Vx, R159 -/
  | ldMemVx (x : RegIdx)
  /-- `Fx65` LD Vx, [I], R161 -/
  | ldVxMem (x : RegIdx)
  deriving DecidableEq, Repr

end Sys2Proof
end

