-- ==== Sys2Proof/WellFormed.lean ====
section
/-! DEFINITION. What is well formed. A term of `Instr` always is: each field type has the width spec/30_encoding.md R71
gives the field, so an out-of-range register, address or immediate cannot be written (spec/10_state.md R20). The checks are on
what is not typed that way: an instruction WORD (R75, the opcode map of R76), the form an ASSEMBLER emits (R82), and a program
IMAGE (spec/70_reset_and_hazards.md R247). -/

namespace Sys2Proof

/-- A row of the opcode map: the mnemonic as spec/opcode_table.json writes it, `match` and `mask` (R76). -/
structure OpRow where
  mnemonic : String
  pattern : Word
  mask : Word
  deriving DecidableEq, Repr

/-- `(w & mask) = match` (R75). -/
def OpRow.fits (r : OpRow) (w : Word) : Bool := w &&& r.mask == r.pattern

/-- The row of R76 an instruction belongs to. -/
def Instr.row : Instr → OpRow
  | .cls => ⟨"CLS", 0x00E0#16, 0xFFFF#16⟩
  | .ret => ⟨"RET", 0x00EE#16, 0xFFFF#16⟩
  | .jp _ => ⟨"JP_nnn", 0x1000#16, 0xF000#16⟩
  | .call _ => ⟨"CALL_nnn", 0x2000#16, 0xF000#16⟩
  | .seImm _ _ => ⟨"SE_Vx__kk", 0x3000#16, 0xF000#16⟩
  | .sneImm _ _ => ⟨"SNE_Vx__kk", 0x4000#16, 0xF000#16⟩
  | .seReg _ _ => ⟨"SE_Vx__Vy", 0x5000#16, 0xF00F#16⟩
  | .ldImm _ _ => ⟨"LD_Vx__kk", 0x6000#16, 0xF000#16⟩
  | .addImm _ _ => ⟨"ADD_Vx__kk", 0x7000#16, 0xF000#16⟩
  | .ldReg _ _ => ⟨"LD_Vx__Vy", 0x8000#16, 0xF00F#16⟩
  | .orReg _ _ => ⟨"OR_Vx__Vy", 0x8001#16, 0xF00F#16⟩
  | .andReg _ _ => ⟨"AND_Vx__Vy", 0x8002#16, 0xF00F#16⟩
  | .xorReg _ _ => ⟨"XOR_Vx__Vy", 0x8003#16, 0xF00F#16⟩
  | .addReg _ _ => ⟨"ADD_Vx__Vy", 0x8004#16, 0xF00F#16⟩
  | .subReg _ _ => ⟨"SUB_Vx__Vy", 0x8005#16, 0xF00F#16⟩
  | .shr _ _ => ⟨"SHR_Vx", 0x8006#16, 0xF00F#16⟩
  | .subnReg _ _ => ⟨"SUBN_Vx__Vy", 0x8007#16, 0xF00F#16⟩
  | .shl _ _ => ⟨"SHL_Vx", 0x800E#16, 0xF00F#16⟩
  | .sneReg _ _ => ⟨"SNE_Vx__Vy", 0x9000#16, 0xF00F#16⟩
  | .ldI _ => ⟨"LD_I__nnn", 0xA000#16, 0xF000#16⟩
  | .jpV0 _ => ⟨"JP_V0__nnn", 0xB000#16, 0xF000#16⟩
  | .rnd _ _ => ⟨"RND_Vx__kk", 0xC000#16, 0xF000#16⟩
  | .drw _ _ _ => ⟨"DRW_Vx__Vy__n", 0xD000#16, 0xF000#16⟩
  | .skp _ => ⟨"SKP_Vx", 0xE09E#16, 0xF0FF#16⟩
  | .sknp _ => ⟨"SKNP_Vx", 0xE0A1#16, 0xF0FF#16⟩
  | .ldVxDt _ => ⟨"LD_Vx__DT", 0xF007#16, 0xF0FF#16⟩
  | .ldVxK _ => ⟨"LD_Vx__K", 0xF00A#16, 0xF0FF#16⟩
  | .ldDtVx _ => ⟨"LD_DT__Vx", 0xF015#16, 0xF0FF#16⟩
  | .ldStVx _ => ⟨"LD_ST__Vx", 0xF018#16, 0xF0FF#16⟩
  | .addI _ => ⟨"ADD_I__Vx", 0xF01E#16, 0xF0FF#16⟩
  | .ldF _ => ⟨"LD_F__Vx", 0xF029#16, 0xF0FF#16⟩
  | .ldB _ => ⟨"LD_B__Vx", 0xF033#16, 0xF0FF#16⟩
  | .ldMemVx _ => ⟨"LD__I___Vx", 0xF055#16, 0xF0FF#16⟩
  | .ldVxMem _ => ⟨"LD_Vx___I", 0xF065#16, 0xF0FF#16⟩

/-- One instruction of each row, every field 0, in the table's order. -/
def rowSamples : List Instr :=
  [.cls, .ret, .jp 0, .call 0, .seImm 0 0, .sneImm 0 0, .seReg 0 0, .ldImm 0 0, .addImm 0 0, .ldReg 0 0, .orReg 0 0,
   .andReg 0 0, .xorReg 0 0, .addReg 0 0, .subReg 0 0, .shr 0 0, .subnReg 0 0, .shl 0 0, .sneReg 0 0, .ldI 0, .jpV0 0,
   .rnd 0 0, .drw 0 0 0] ++
  [.skp 0, .sknp 0, .ldVxDt 0, .ldVxK 0, .ldDtVx 0, .ldStVx 0, .addI 0, .ldF 0, .ldB 0, .ldMemVx 0, .ldVxMem 0]

/-- The opcode map of R76, 34 rows in the source's order. -/
def opTable : List OpRow := rowSamples.map Instr.row

/-- A word is well formed when some row of the opcode map fits it; every other word is unsupported (R75, R79). -/
def wellFormedWord (w : Word) : Bool := opTable.any (fun r => r.fits w)

/-- The form an assembler emits: `SHR Vx` and `SHL Vx` are encoded with `y = 0` (R82, D18). The hardware executes the
other values of `y` just the same (R139, R141), so this check is no condition on execution. -/
def Instr.assemblerForm : Instr → Bool
  | .shr _ y => y == 0
  | .shl _ y => y == 0
  | .cls | .ret | .jp _ | .call _ | .seImm _ _ | .sneImm _ _ | .seReg _ _ | .ldImm _ _ | .addImm _ _ | .ldReg _ _ => true
  | .orReg _ _ | .andReg _ _ | .xorReg _ _ | .addReg _ _ | .subReg _ _ | .subnReg _ _ | .sneReg _ _ | .ldI _ => true
  | .jpV0 _ | .rnd _ _ | .drw _ _ _ | .skp _ | .sknp _ | .ldVxDt _ | .ldVxK _ | .ldDtVx _ | .ldStVx _ | .addI _ => true
  | .ldF _ | .ldB _ | .ldMemVx _ | .ldVxMem _ => true

/-- A program image the core accepts: at most 3584 bytes (R247). -/
def wellFormedImage (bytes : List Byte) : Bool := bytes.length ≤ Config.maxProgram

end Sys2Proof
end

