-- ==== Sys2Proof/Decode.lean ====
section
/-! DEFINITION. Decoding, total on any bytes and rejecting by name, and the encoder, both written from the field positions and
formats of spec/30_encoding.md (R71, R72, R74, R75, R76). -/

namespace Sys2Proof

/-- Why bytes do not decode. -/
inductive DecodeError where
  /-- fewer than the two bytes every instruction has (R70) -/
  | truncated
  /-- the word matches no row of the opcode map (R75, R79) -/
  | unsupported (w : Word)
  deriving DecidableEq, Repr

/-- `op = w[15:12]`, the top nibble (R10, R71). -/
def opField (w : Word) : BitVec 4 := w.extractLsb' 12 4

/-- `x = w[11:8]` (R10, R71). -/
def xField (w : Word) : RegIdx := w.extractLsb' 8 4

/-- `y = w[7:4]` (R10, R71). -/
def yField (w : Word) : RegIdx := w.extractLsb' 4 4

/-- `n = w[3:0]` (R10, R71). -/
def nField (w : Word) : Nibble := w.extractLsb' 0 4

/-- `kk = w[7:0]` (R10, R71). -/
def kkField (w : Word) : Byte := w.extractLsb' 0 8

/-- `nnn = w[11:0]` (R10, R71). -/
def nnnField (w : Word) : Addr := w.extractLsb' 0 12

/-- Two bytes as a word, the first the high byte (R52). -/
def wordOf (hi lo : Byte) : Word := hi ++ lo

/-- The high byte of a word, which lies at the lower address (R52). -/
def highByte (w : Word) : Byte := w.extractLsb' 8 8

/-- The low byte of a word (R52). -/
def lowByte (w : Word) : Byte := w.extractLsb' 0 8

/-- Dispatch within top nibble 0, on the whole word (R74). -/
def decodeZero (w : Word) : Option Instr :=
  if w = 0x00E0#16 then some .cls
  else if w = 0x00EE#16 then some .ret
  else none

/-- Dispatch within top nibble 8, on `w[3:0]` (R74). -/
def decodeEight (w : Word) : Option Instr :=
  if nField w = 0x0#4 then some (.ldReg (xField w) (yField w))
  else if nField w = 0x1#4 then some (.orReg (xField w) (yField w))
  else if nField w = 0x2#4 then some (.andReg (xField w) (yField w))
  else if nField w = 0x3#4 then some (.xorReg (xField w) (yField w))
  else if nField w = 0x4#4 then some (.addReg (xField w) (yField w))
  else if nField w = 0x5#4 then some (.subReg (xField w) (yField w))
  else if nField w = 0x6#4 then some (.shr (xField w) (yField w))
  else if nField w = 0x7#4 then some (.subnReg (xField w) (yField w))
  else if nField w = 0xE#4 then some (.shl (xField w) (yField w))
  else none

/-- Dispatch within top nibble E, on `w[7:0]` (R74). -/
def decodeE (w : Word) : Option Instr :=
  if kkField w = 0x9E#8 then some (.skp (xField w))
  else if kkField w = 0xA1#8 then some (.sknp (xField w))
  else none

/-- Dispatch within top nibble F, on `w[7:0]` (R74). -/
def decodeF (w : Word) : Option Instr :=
  if kkField w = 0x07#8 then some (.ldVxDt (xField w))
  else if kkField w = 0x0A#8 then some (.ldVxK (xField w))
  else if kkField w = 0x15#8 then some (.ldDtVx (xField w))
  else if kkField w = 0x18#8 then some (.ldStVx (xField w))
  else if kkField w = 0x1E#8 then some (.addI (xField w))
  else if kkField w = 0x29#8 then some (.ldF (xField w))
  else if kkField w = 0x33#8 then some (.ldB (xField w))
  else if kkField w = 0x55#8 then some (.ldMemVx (xField w))
  else if kkField w = 0x65#8 then some (.ldVxMem (xField w))
  else none

/-- `Decode(w)`: classify by the top nibble, then dispatch, exact on every fixed nibble; `none` is `Unsupported` (R74, R75). -/
def decodeWord (w : Word) : Option Instr :=
  if opField w = 0x0#4 then decodeZero w
  else if opField w = 0x1#4 then some (.jp (nnnField w))
  else if opField w = 0x2#4 then some (.call (nnnField w))
  else if opField w = 0x3#4 then some (.seImm (xField w) (kkField w))
  else if opField w = 0x4#4 then some (.sneImm (xField w) (kkField w))
  else if opField w = 0x5#4 then (if nField w = 0x0#4 then some (.seReg (xField w) (yField w)) else none)
  else if opField w = 0x6#4 then some (.ldImm (xField w) (kkField w))
  else if opField w = 0x7#4 then some (.addImm (xField w) (kkField w))
  else if opField w = 0x8#4 then decodeEight w
  else if opField w = 0x9#4 then (if nField w = 0x0#4 then some (.sneReg (xField w) (yField w)) else none)
  else if opField w = 0xA#4 then some (.ldI (nnnField w))
  else if opField w = 0xB#4 then some (.jpV0 (nnnField w))
  else if opField w = 0xC#4 then some (.rnd (xField w) (kkField w))
  else if opField w = 0xD#4 then some (.drw (xField w) (yField w) (nField w))
  else if opField w = 0xE#4 then decodeE w
  else decodeF w

/-- The instruction at the head of a list of bytes and the bytes after it; two bytes, high byte first (R52, R70). -/
def decode : List Byte → Except DecodeError (Instr × List Byte)
  | hi :: lo :: rest =>
    match decodeWord (wordOf hi lo) with
    | some i => .ok (i, rest)
    | none => .error (.unsupported (wordOf hi lo))
  | [] => .error .truncated
  | [_] => .error .truncated

/-- Format A: `op nnn` (R72). -/
def formatA (op : BitVec 4) (nnn : Addr) : Word := op ++ nnn

/-- Format I: `op x kk` (R72). -/
def formatI (op : BitVec 4) (x : RegIdx) (kk : Byte) : Word := op ++ x ++ kk

/-- Formats R and D: `op x y` and a low nibble, fixed in R, the count `n` in D (R72). -/
def formatR (op : BitVec 4) (x y : RegIdx) (low : BitVec 4) : Word := op ++ x ++ y ++ low

/-- Format X: `op x fn` with `fn` a fixed low byte (R72). -/
def formatX (op : BitVec 4) (x : RegIdx) (fn : Byte) : Word := op ++ x ++ fn

/-- The word of an instruction, from its pattern in R76. -/
def encode : Instr → Word
  | .cls => 0x00E0#16
  | .ret => 0x00EE#16
  | .jp nnn => formatA 0x1#4 nnn
  | .call nnn => formatA 0x2#4 nnn
  | .seImm x kk => formatI 0x3#4 x kk
  | .sneImm x kk => formatI 0x4#4 x kk
  | .seReg x y => formatR 0x5#4 x y 0x0#4
  | .ldImm x kk => formatI 0x6#4 x kk
  | .addImm x kk => formatI 0x7#4 x kk
  | .ldReg x y => formatR 0x8#4 x y 0x0#4
  | .orReg x y => formatR 0x8#4 x y 0x1#4
  | .andReg x y => formatR 0x8#4 x y 0x2#4
  | .xorReg x y => formatR 0x8#4 x y 0x3#4
  | .addReg x y => formatR 0x8#4 x y 0x4#4
  | .subReg x y => formatR 0x8#4 x y 0x5#4
  | .shr x y => formatR 0x8#4 x y 0x6#4
  | .subnReg x y => formatR 0x8#4 x y 0x7#4
  | .shl x y => formatR 0x8#4 x y 0xE#4
  | .sneReg x y => formatR 0x9#4 x y 0x0#4
  | .ldI nnn => formatA 0xA#4 nnn
  | .jpV0 nnn => formatA 0xB#4 nnn
  | .rnd x kk => formatI 0xC#4 x kk
  | .drw x y n => formatR 0xD#4 x y n
  | .skp x => formatX 0xE#4 x 0x9E#8
  | .sknp x => formatX 0xE#4 x 0xA1#8
  | .ldVxDt x => formatX 0xF#4 x 0x07#8
  | .ldVxK x => formatX 0xF#4 x 0x0A#8
  | .ldDtVx x => formatX 0xF#4 x 0x15#8
  | .ldStVx x => formatX 0xF#4 x 0x18#8
  | .addI x => formatX 0xF#4 x 0x1E#8
  | .ldF x => formatX 0xF#4 x 0x29#8
  | .ldB x => formatX 0xF#4 x 0x33#8
  | .ldMemVx x => formatX 0xF#4 x 0x55#8
  | .ldVxMem x => formatX 0xF#4 x 0x65#8

/-- The bytes of an instruction as they lie in memory, lowest address first (R52). -/
def encodeBytes (i : Instr) : List Byte := [highByte (encode i), lowByte (encode i)]

/-- A word whose low `nbits` bits are those of `w` and whose other bits are 0. -/
def tableWord (nbits w : Nat) : Word := BitVec.ofNat 16 (w % 2 ^ nbits)

/-- The instruction the decoder reads from `w`, numbered as spec/opcode_table.json numbers it: one word, bit 0 the least
significant, laid out high byte first (R52). -/
def decodeTableWord (nbits w : Nat) : Option Instr :=
  match decode [highByte (tableWord nbits w), lowByte (tableWord nbits w)] with
  | .ok (i, _) => some i
  | .error _ => none

end Sys2Proof
end

