-- ==== Sys2Proof/Machine/State.lean ====
section
/-! DEFINITION. The state of the core as plain data (spec/10_state.md), the reasons an operation stops, and the state right
after reset (R40). -/

namespace Sys2Proof.Machine

/-- The 4096 memory cells (R29): the 80 read-only glyph cells at 0x050 to 0x09F, and of every other cell those whose byte is
not 0, as (address, byte) pairs with strictly rising addresses. The canonical form is `Memory.wf` (Machine/Ops.lean). -/
structure Memory where
  /-- the contents of MEM[0x050..0x09F], GLYPH[0..79] (R30, R31) -/
  glyph : Vector Byte Config.glyphSize
  /-- the listed cells outside the glyph table -/
  cells : List Host.Cell
  deriving DecidableEq, Repr

/-- The contents of the FAULT register: codes 0, 1 and 2, and no others (R38, R211). -/
inductive FaultCode where
  /-- code 0: running -/
  | running
  /-- code 1: halted by StackUnderflow (R215) -/
  | stackUnderflow
  /-- code 2: halted by StackOverflow (R216) -/
  | stackOverflow
  deriving DecidableEq, Repr

/-- Reasons an operation answers a fault. No step does: a fatal fault of the core is a NEXT state with FAULT written, as R212
describes it (notes/assumptions/1.md). -/
inductive Fault where
  /-- LoadError, code 4: answered by the host operation `System.load` to an image of more than 3584 bytes, and by nothing
  else (R217, R247). Safe: nothing was changed, the system is as it was before. -/
  | loadError
  deriving DecidableEq, Repr

/-- Reasons an operation is refused. -/
inductive Refusal where
  /-- An instruction without a meaning, by its mnemonic. Raised by nobody: every arm of `exec` is a meaning. Safe. -/
  | notModelled (mnemonic : String)
  /-- A Load other than the one allowed between Reset and the first Step: raised by `System.load` only, as R247 says a model
  does (D19). Safe: nothing was changed. -/
  | loadNotAllowed
  deriving DecidableEq, Repr

/-- Everything the spec gives the core (10_state.md R20 to R38), and one field of the model's own, `draws`. -/
structure State where
  /-- V0 to VF (R20); VF doubles as the flag (R21) -/
  v : Vector Byte 16
  /-- I, the address register (R23) -/
  ireg : Word
  /-- PC (R24) -/
  pc : Word
  /-- SP, the number of stack entries in use, 0 to 16 (R27) -/
  sp : Fin 17
  /-- S[0] to S[15] (R27) -/
  stack : Vector Word 16
  /-- MEM (R29) -/
  mem : Memory
  /-- FB, the display buffer (R32) -/
  fb : Frame
  /-- DT, the delay timer (R33) -/
  dt : Byte
  /-- ST, the sound timer (R33) -/
  st : Byte
  /-- KEYS, written by the host (R34) -/
  keys : KeyVec
  /-- KPREV, KEYS at the end of the previous step (R35) -/
  kprev : KeyVec
  /-- AWAIT, the register a pending key wait will write (R36) -/
  await : Option RegIdx
  /-- REDRAW (R37) -/
  redraw : Bool
  /-- FAULT (R38) -/
  fault : FaultCode
  /-- The model's own: how many random bytes have been consumed, the index of the next free value `Config.rndIn`
  (notes/assumptions/2.md). -/
  draws : Nat
  deriving DecidableEq, Repr

/-- The state after reset (R40, R240): memory zero with the glyph table installed, PC = 0x200, everything else 0 or none. -/
def State.reset : State where
  v := Vector.replicate 16 0
  ireg := 0
  pc := BitVec.ofNat 16 Config.programBase
  sp := 0
  stack := Vector.replicate 16 0
  mem := { glyph := Config.defaultGlyph, cells := [] }
  fb := 0
  dt := 0
  st := 0
  keys := 0
  kprev := 0
  await := none
  redraw := false
  fault := .running
  draws := 0

end Sys2Proof.Machine
end

