-- ==== Sys2Proof/Machine/Ops.lean ====
section
/-! DEFINITION. The named operations over memory, registers, stack, display and control state that every meaning is written
with, taking a fault among them (spec/00_scope.md R11 to R13). -/

namespace Sys2Proof.Machine

/-! ## Memory (20_memory.md) -/

/-- The reduced address 0x050 to 0x09F of the read-only glyph table (R51, R57). -/
def isGlyph (a : Nat) : Bool := Config.glyphBase ≤ a && a < Config.glyphBase + Config.glyphSize

theorem isGlyph_bound {a : Nat} (h : isGlyph a = true) : a - Config.glyphBase < Config.glyphSize := by
  simp only [isGlyph, Bool.and_eq_true, decide_eq_true_eq] at h
  omega

/-- What a cell that is not listed reads as: its glyph byte in the glyph table, 0 elsewhere (R40, R51). -/
def Memory.unlisted (m : Memory) (a : Nat) : Byte :=
  if h : isGlyph a = true then m.glyph[a - Config.glyphBase]'(isGlyph_bound h) else 0

/-- The byte listed for an address, if any. -/
def findCell : List Host.Cell → Nat → Option Byte
  | [], _ => none
  | (b, u) :: rest, a => if b = a then some u else findCell rest a

/-- A list of cells without the entries of one address. -/
def eraseCell (cells : List Host.Cell) (a : Nat) : List Host.Cell := cells.filter (fun c => c.1 != a)

/-- An entry put before the first entry of a higher address. -/
def insertCell (a : Nat) (v : Byte) : List Host.Cell → List Host.Cell
  | [] => [(a, v)]
  | (b, u) :: rest => if a < b then (a, v) :: (b, u) :: rest else (b, u) :: insertCell a v rest

/-- The list after a cell outside the glyph table takes the byte `v`; the byte 0 is not listed. -/
def setCell (cells : List Host.Cell) (a : Nat) (v : Byte) : List Host.Cell :=
  if v = 0 then eraseCell cells a else insertCell a v (eraseCell cells a)

/-- `MemRead(addr, 1)`: the byte of cell `addr mod 4096` (R12, R53). -/
def Memory.read (m : Memory) (addr : Nat) : Byte :=
  if isGlyph (addr % Config.memSize) then m.unlisted (addr % Config.memSize)
  else (findCell m.cells (addr % Config.memSize)).getD (m.unlisted (addr % Config.memSize))

/-- `MemWrite(addr, 1, v)`: cell `addr mod 4096` takes `v`, but a write into the glyph table is dropped (R12, R57). -/
def Memory.write (m : Memory) (addr : Nat) (v : Byte) : Memory :=
  if isGlyph (addr % Config.memSize) then m
  else { m with cells := setCell m.cells (addr % Config.memSize) v }

/-- A cell takes `v` even inside the glyph table. No instruction and no host operation does this; it only serves
`State.withFetchWord` (notes/assumptions/11.md). -/
def Memory.poke (m : Memory) (addr : Nat) (v : Byte) : Memory :=
  if h : isGlyph (addr % Config.memSize) = true then
    { m with glyph := m.glyph.set (addr % Config.memSize - Config.glyphBase) v (isGlyph_bound h) }
  else m.write addr v

/-- The canonical form of memory: addresses strictly rising, all inside the address space and outside the glyph table, no
entry equal to what an unlisted cell reads as. -/
abbrev Memory.wf (m : Memory) : Prop :=
  m.cells.Pairwise (fun c d => c.1 < d.1) ∧
    ∀ c ∈ m.cells, c.1 < Config.memSize ∧ isGlyph c.1 = false ∧ c.2 ≠ m.unlisted c.1

/-- `MemRead` on the state. -/
def State.memRead (s : State) (addr : Nat) : Byte := s.mem.read addr

/-- `MemWrite` on the state. -/
def State.memWrite (s : State) (addr : Nat) (v : Byte) : State := { s with mem := s.mem.write addr v }

/-- Bytes written one by one at rising addresses from `addr` (R55). -/
def State.storeBytes (s : State) (addr : Nat) : List Byte → State
  | [] => s
  | b :: bs => (s.memWrite addr b).storeBytes (addr + 1) bs

/-- The word at PC: `MEM[PC mod 4096] ++ MEM[(PC + 1) mod 4096]`, high byte first (R52, R53, R92). -/
def State.fetchWord (s : State) : Word := wordOf (s.memRead s.pc.toNat) (s.memRead (s.pc.toNat + 1))

/-! ## Registers (10_state.md) -/

/-- VF, `V[15]` (R21). -/
def vf : RegIdx := 0xF#4

/-- `V[r]` (R11, R20). -/
def State.readV (s : State) (r : RegIdx) : Byte := s.v[r.toNat]'(by have := r.isLt; omega)

/-- `V[r] <- b` (R11, R20). -/
def State.writeV (s : State) (r : RegIdx) (b : Byte) : State :=
  { s with v := s.v.set r.toNat b (by have := r.isLt; omega) }

/-- `PC <- (PC + k) mod 65536` (R25, R26). -/
def State.advance (s : State) (k : Word) : State := { s with pc := s.pc + k }

/-- The one write of PC by a skip: `PC + 4` if the condition holds, else `PC + 2` (R115). -/
def State.skipIf (s : State) (c : Bool) : State := s.advance (if c then 4 else 2)

/-- `V[0], ..., V[n-1]` loaded from `n` bytes from `addr` on, in ascending order (R161). -/
def State.loadRegs (s : State) (addr : Nat) : Nat → State
  | 0 => s
  | n + 1 => (s.loadRegs addr n).writeV (BitVec.ofNat 4 n) (s.memRead (addr + n))

/-! ## Stack (10_state.md R27, R28) -/

/-- `Push(v)`: `none` if SP = 16, where it raises StackOverflow (R28). -/
def State.push (s : State) (v : Word) : Option State :=
  if h : s.sp.val < 16 then
    some { s with stack := s.stack.set s.sp.val v h, sp := ⟨s.sp.val + 1, by omega⟩ }
  else none

/-- `Pop()`: `none` if SP = 0, where it raises StackUnderflow; the popped slot keeps its value (R28). -/
def State.pop (s : State) : Option (Word × State) :=
  if h : 0 < s.sp.val then
    some (s.stack[s.sp.val - 1]'(by have := s.sp.isLt; omega),
      { s with sp := ⟨s.sp.val - 1, by have := s.sp.isLt; omega⟩ })
  else none

/-! ## Taking a fault (60_exceptions.md R212) -/

/-- `raise`: FAULT takes the code and nothing else changes; there is no vector, no saved state and no return (R100, R212,
R221). The outcome `Fault(state', code)` of R14 is this next state (notes/assumptions/1.md). -/
def State.raise (s : State) (code : FaultCode) : Host.Outcome State Fault Refusal := .next { s with fault := code }

/-! ## Display (44_display.md) -/

/-- Cell `c` of FB (R32). -/
def State.cell (s : State) (c : Nat) : Bool := s.fb.getLsbD c

/-- The cell of a column and a row, each wrapped on its own (R170, R174, R175). -/
def cellIndex (col row : Nat) : Nat := (row % Config.rows) * Config.columns + col % Config.columns

/-- `FB[c] <- FB[c] ^ 1`, recording a collision when the cell was 1 (R174). -/
def flipCell (d : Frame × Bool) (c : Nat) : Frame × Bool := (d.1 ^^^ BitVec.twoPow 2048 c, d.2 || d.1.getLsbD c)

/-- The first `k` columns of one sprite row, column 0 in bit 7 (R174). -/
def drawBits (b : Byte) (col row : Nat) : Nat → Frame × Bool → Frame × Bool
  | 0, d => d
  | k + 1, d =>
    if b.getLsbD (7 - k) then flipCell (drawBits b col row k d) (cellIndex (col + k) row)
    else drawBits b col row k d

/-- The first `n` rows of the sprite whose byte `row` is `sprite row`, drawn at column `col` and row `row` (R174). -/
def drawRows (sprite : Nat → Byte) (col row : Nat) : Nat → Frame × Bool → Frame × Bool
  | 0, d => d
  | n + 1, d => drawBits (sprite n) col (row + n) 8 (drawRows sprite col row n d)

/-! ## Timers, keys and the end of a step (40_step_cycle.md, 45_timers_keys.md) -/

/-- One count of a timer, floor 0 (R97). -/
def countDown (t : Byte) : Byte := if t = 0 then 0 else t - 1

/-- The timer tick (R97). -/
def State.tick (s : State) : State := { s with dt := countDown s.dt, st := countDown s.st }

/-- `KPREV <- KEYS` (R98). -/
def State.latchKeys (s : State) : State := { s with kprev := s.keys }

/-- The tick and then the key bookkeeping, which end every step that does not fault (R97, R98). -/
def State.endStep (s : State) : State := s.tick.latchKeys

/-- Key `k` is pressed (R34). -/
def State.keyDown (s : State) (k : Nibble) : Bool := s.keys.getLsbD k.toNat

/-- The lowest key with a press edge: pressed now, released at the end of the previous step (R200). -/
def State.lowestEdge (s : State) : Option Nibble :=
  ((List.range 16).find? (fun k => s.keys.getLsbD k && !s.kprev.getLsbD k)).map (BitVec.ofNat 4)

/-- `KeyWaitStep(r)` (R200): on a press edge `V[r]` takes the key, PC + 2, AWAIT cleared; otherwise nothing. -/
def State.keyWaitStep (s : State) (r : RegIdx) : State :=
  match s.lowestEdge with
  | some k => { (s.writeV r (k.setWidth 8)).advance 2 with await := none }
  | none => s

/-- The step on an unsupported word: PC + 2, then the tick and the bookkeeping, and nothing else (R96, R214). -/
def State.unsupportedStep (s : State) : State := (s.advance 2).endStep

/-- A word laid at PC as the fetch reads it, high byte first, in a core that is running and waits for no key, so that the
next step fetches it (notes/assumptions/11.md). -/
def State.placeWord (s : State) (w : Word) : State :=
  { s with
    mem := (s.mem.poke s.pc.toNat (highByte w)).poke (s.pc.toNat + 1) (lowByte w)
    await := none
    fault := .running }

/-- What the rest of a step does with the result of its instruction: a raised fault ends the step at once (R100), any other
next state goes on to the tick and the bookkeeping (R90). -/
def settle : Host.Outcome State Fault Refusal → Host.Outcome State Fault Refusal
  | .next t => if t.fault = .running then .next t.endStep else .next t
  | .fault f => .fault f
  | .refused r => .refused r

end Sys2Proof.Machine
end

