-- ==== Sys2Proof/Machine/Operands.lean ====
section
/-! DEFINITION. The operand forms (spec/30_encoding.md R73, spec/43_index_memory.md R150): registers and immediates as the field
gives them, the I-relative addresses, the decimal digits, the key a register selects. -/

namespace Sys2Proof.Machine

/-- `nnn` zero-extended to 16 bits, as PC and I take it (R73). -/
def addrWord (nnn : Addr) : Word := nnn.setWidth 16

/-- The address of byte `k` of an access before its reduction modulo 4096, which the memory operations make (R56, R150). -/
def State.iAddr (s : State) (k : Nat) : Nat := s.ireg.toNat + k

/-- `V[0], ..., V[x]`, the implicit registers of `Fx55` (R73, R159). -/
def State.regsUpTo (s : State) (x : RegIdx) : List Byte :=
  (List.range (x.toNat + 1)).map (fun k => s.readV (BitVec.ofNat 4 k))

/-- The hundreds, tens and ones of a byte, each in a byte of its own (R157). -/
def digits (b : Byte) : List Byte :=
  [BitVec.ofNat 8 (b.toNat / 100), BitVec.ofNat 8 (b.toNat / 10 % 10), BitVec.ofNat 8 (b.toNat % 10)]

/-- The key a register selects, `V[x] mod 16` (R196). -/
def State.keyOf (s : State) (x : RegIdx) : Nibble := (s.readV x).setWidth 4

/-- The sprite row at offset `row` from I (R174). -/
def State.spriteRow (s : State) (row : Nat) : Byte := s.memRead (s.iAddr row)

/-- `(V[0] + nnn) mod 4096`, the target of `Bnnn` (R114). -/
def State.jumpV0Target (s : State) (nnn : Addr) : Word :=
  BitVec.ofNat 16 (((s.readV 0).toNat + nnn.toNat) % Config.memSize)

/-- `(I + V[x]) mod 4096` (R153). -/
def State.addITarget (s : State) (x : RegIdx) : Word :=
  BitVec.ofNat 16 ((s.ireg.toNat + (s.readV x).toNat) % Config.memSize)

/-- `0x050 + 5 · V[x]`, the address of the glyph of `V[x]` (R155). -/
def State.glyphAddr (s : State) (x : RegIdx) : Word :=
  BitVec.ofNat 16 (Config.glyphBase + 5 * (s.readV x).toNat)

end Sys2Proof.Machine
end

