-- ==== Sys2Proof/Machine/Flags.lean ====
section
/-! DEFINITION. The flag computations (spec/10_state.md R21, R22; spec/42_load_alu.md R130) and the one way a flag is written:
after the result, so that it wins when `x = F`. -/

namespace Sys2Proof.Machine

/-- A flag as the byte VF holds, 0 or 1 (R21). -/
def flagByte (c : Bool) : Byte := if c then 1 else 0

/-- Carry out of an addition: the exact sum is above 255 (R137). -/
def carryOut (a b : Byte) : Bool := 255 < a.toNat + b.toNat

/-- No borrow in `a - b`: `a ≥ b` (R138, R140). -/
def noBorrow (a b : Byte) : Bool := b.toNat ≤ a.toNat

/-- The bit a right shift loses (R139). -/
def shiftedOutRight (a : Byte) : Bool := a.getLsbD 0

/-- The bit a left shift loses (R141). -/
def shiftedOutLeft (a : Byte) : Bool := a.getLsbD 7

/-- `V[15] <- flag` (R21). -/
def State.writeFlag (s : State) (c : Bool) : State := s.writeV vf (flagByte c)

/-- `V[x] <- result`, then `V[15] <- flag`, then `PC <- PC + 2` (R22, R130). -/
def State.resultThenFlag (s : State) (x : RegIdx) (result : Byte) (c : Bool) : State :=
  ((s.writeV x result).writeFlag c).advance 2

/-- `V[x] <- result`, no flag, then `PC <- PC + 2` (R130). -/
def State.resultOnly (s : State) (x : RegIdx) (result : Byte) : State := (s.writeV x result).advance 2

end Sys2Proof.Machine
end

