-- ==== Sys2Proof/Machine/Control.lean ====
section
/-! DEFINITION. Control transfer: the meanings of spec/41_control_flow.md. They write PC, and CALL and RET also the stack; none
writes a V register, I, memory, FB, the timers, AWAIT or REDRAW (R110). -/

namespace Sys2Proof.Machine

/-- `1nnn` JP: `PC <- nnn` (R111). -/
def execJp (nnn : Addr) (s : State) : Host.Outcome State Fault Refusal :=
  .next { s with pc := addrWord nnn }

/-- `2nnn` CALL: StackOverflow when SP = 16, else the return address `PC + 2` is pushed and `PC <- nnn` (R112, R216). -/
def execCall (nnn : Addr) (s : State) : Host.Outcome State Fault Refusal :=
  match s.push (s.pc + 2) with
  | some t => .next { t with pc := addrWord nnn }
  | none => s.raise .stackOverflow

/-- `00EE` RET: StackUnderflow when SP = 0, else PC takes the popped word as it is (R113, R215, C1). -/
def execRet (s : State) : Host.Outcome State Fault Refusal :=
  match s.pop with
  | some (target, t) => .next { t with pc := target }
  | none => s.raise .stackUnderflow

/-- `Bnnn` JP V0: `PC <- (V[0] + nnn) mod 4096` (R114). -/
def execJpV0 (nnn : Addr) (s : State) : Host.Outcome State Fault Refusal :=
  .next { s with pc := s.jumpV0Target nnn }

/-- `3xkk` SE: skip if `V[x] = kk` (R116). -/
def execSeImm (x : RegIdx) (kk : Byte) (s : State) : Host.Outcome State Fault Refusal :=
  .next (s.skipIf (s.readV x == kk))

/-- `4xkk` SNE: skip if `V[x] ≠ kk` (R117). -/
def execSneImm (x : RegIdx) (kk : Byte) (s : State) : Host.Outcome State Fault Refusal :=
  .next (s.skipIf (s.readV x != kk))

/-- `5xy0` SE: skip if `V[x] = V[y]` (R118). -/
def execSeReg (x y : RegIdx) (s : State) : Host.Outcome State Fault Refusal :=
  .next (s.skipIf (s.readV x == s.readV y))

/-- `9xy0` SNE: skip if `V[x] ≠ V[y]` (R119). -/
def execSneReg (x y : RegIdx) (s : State) : Host.Outcome State Fault Refusal :=
  .next (s.skipIf (s.readV x != s.readV y))

end Sys2Proof.Machine
end

