-- ==== Sys2Proof/Machine/Alu.lean ====
section
/-! DEFINITION. Register load, arithmetic, logic and random: the meanings of spec/42_load_alu.md. Operands are the register
values before the instruction and the flag is written after the result (R130, R22). -/

namespace Sys2Proof.Machine

/-- `6xkk` LD: `V[x] <- kk` (R131). -/
def execLdImm (x : RegIdx) (kk : Byte) (s : State) : Host.Outcome State Fault Refusal :=
  .next (s.resultOnly x kk)

/-- `7xkk` ADD: `V[x] <- (V[x] + kk) mod 256`, VF is not written as a flag (R132). -/
def execAddImm (x : RegIdx) (kk : Byte) (s : State) : Host.Outcome State Fault Refusal :=
  .next (s.resultOnly x (s.readV x + kk))

/-- `8xy0` LD: `V[x] <- V[y]` (R133). -/
def execLdReg (x y : RegIdx) (s : State) : Host.Outcome State Fault Refusal :=
  .next (s.resultOnly x (s.readV y))

/-- `8xy1` OR, VF left as it was (R134). -/
def execOr (x y : RegIdx) (s : State) : Host.Outcome State Fault Refusal :=
  .next (s.resultOnly x (s.readV x ||| s.readV y))

/-- `8xy2` AND, VF left as it was (R135). -/
def execAnd (x y : RegIdx) (s : State) : Host.Outcome State Fault Refusal :=
  .next (s.resultOnly x (s.readV x &&& s.readV y))

/-- `8xy3` XOR, VF left as it was (R136). -/
def execXor (x y : RegIdx) (s : State) : Host.Outcome State Fault Refusal :=
  .next (s.resultOnly x (s.readV x ^^^ s.readV y))

/-- `8xy4` ADD: VF is the carry out (R137). -/
def execAddReg (x y : RegIdx) (s : State) : Host.Outcome State Fault Refusal :=
  .next (s.resultThenFlag x (s.readV x + s.readV y) (carryOut (s.readV x) (s.readV y)))

/-- `8xy5` SUB: `V[x] - V[y]`, VF is 1 when there is no borrow (R138). -/
def execSub (x y : RegIdx) (s : State) : Host.Outcome State Fault Refusal :=
  .next (s.resultThenFlag x (s.readV x - s.readV y) (noBorrow (s.readV x) (s.readV y)))

/-- `8xy6` SHR: `V[x]` shifted right by one, VF is the old bit 0; `y` is ignored (R139). -/
def execShr (x _y : RegIdx) (s : State) : Host.Outcome State Fault Refusal :=
  .next (s.resultThenFlag x (s.readV x >>> 1) (shiftedOutRight (s.readV x)))

/-- `8xy7` SUBN: `V[y] - V[x]`, VF is 1 when there is no borrow (R140). -/
def execSubn (x y : RegIdx) (s : State) : Host.Outcome State Fault Refusal :=
  .next (s.resultThenFlag x (s.readV y - s.readV x) (noBorrow (s.readV y) (s.readV x)))

/-- `8xyE` SHL: `V[x]` shifted left by one, VF is the old bit 7; `y` is ignored (R141). -/
def execShl (x _y : RegIdx) (s : State) : Host.Outcome State Fault Refusal :=
  .next (s.resultThenFlag x (s.readV x <<< 1) (shiftedOutLeft (s.readV x)))

/-- RND on the byte `r` that `rnd_in` presents: `V[x] <- r & kk`, and the next RND gets the next byte (R142, R143). -/
def State.rndWith (s : State) (r : Byte) (x : RegIdx) (kk : Byte) : State :=
  { s.resultOnly x (r &&& kk) with draws := s.draws + 1 }

/-- `Cxkk` RND on the free byte of this execution (R142, R143; notes/assumptions/2.md). -/
def execRnd (x : RegIdx) (kk : Byte) (s : State) : Host.Outcome State Fault Refusal :=
  .next (s.rndWith (Config.rndIn s.draws) x kk)

end Sys2Proof.Machine
end

