-- ==== Sys2Proof/Machine/Index.lean ====
section
/-! DEFINITION. The address register and memory: the meanings of spec/43_index_memory.md. I is unchanged by the stores and the
load (R150, D8); none writes VF as a flag. -/

namespace Sys2Proof.Machine

/-- `Annn` LD I: `I <- nnn` (R151). -/
def execLdI (nnn : Addr) (s : State) : Host.Outcome State Fault Refusal :=
  .next ({ s with ireg := addrWord nnn }.advance 2)

/-- `Fx1E` ADD I: `I <- (I + V[x]) mod 4096`, no flag (R153). -/
def execAddI (x : RegIdx) (s : State) : Host.Outcome State Fault Refusal :=
  .next ({ s with ireg := s.addITarget x }.advance 2)

/-- `Fx29` LD F: `I <- 0x050 + 5 · V[x]`, the whole byte (R155). -/
def execLdF (x : RegIdx) (s : State) : Host.Outcome State Fault Refusal :=
  .next ({ s with ireg := s.glyphAddr x }.advance 2)

/-- `Fx33` LD B: the three digits of `V[x]` at I (R157). -/
def execLdB (x : RegIdx) (s : State) : Host.Outcome State Fault Refusal :=
  .next ((s.storeBytes (s.iAddr 0) (digits (s.readV x))).advance 2)

/-- `Fx55` LD [I], Vx: `V[0]` to `V[x]` at I (R159). -/
def execLdMemVx (x : RegIdx) (s : State) : Host.Outcome State Fault Refusal :=
  .next ((s.storeBytes (s.iAddr 0) (s.regsUpTo x)).advance 2)

/-- `Fx65` LD Vx, [I]: `V[0]` to `V[x]` from I (R161). -/
def execLdVxMem (x : RegIdx) (s : State) : Host.Outcome State Fault Refusal :=
  .next ((s.loadRegs (s.iAddr 0) (x.toNat + 1)).advance 2)

end Sys2Proof.Machine
end

