-- ==== Sys2Proof/Machine/Display.lean ====
section
/-! DEFINITION. The display: the meanings of spec/44_display.md. -/

namespace Sys2Proof.Machine

/-- `00E0` CLS: every cell 0, REDRAW raised if CLS_RAISES_REDRAW holds (R172, D13). -/
def execCls (s : State) : Host.Outcome State Fault Refusal :=
  .next ({ s with fb := 0, redraw := s.redraw || Config.clsRaisesRedraw }.advance 2)

/-- FB and the collision after drawing `n` rows from I at (`V[x]`, `V[y]`), all read before anything is written (R174). -/
def State.drawn (s : State) (x y : RegIdx) (n : Nibble) : Frame × Bool :=
  drawRows s.spriteRow (s.readV x).toNat (s.readV y).toNat n.toNat (s.fb, false)

/-- `Dxyn` DRW: the sprite is XORed into FB, VF takes the collision, last of the registers, REDRAW is raised (R174, R176). -/
def execDrw (x y : RegIdx) (n : Nibble) (s : State) : Host.Outcome State Fault Refusal :=
  .next (({ s with fb := (s.drawn x y n).1, redraw := true }.writeFlag (s.drawn x y n).2).advance 2)

end Sys2Proof.Machine
end

