-- ==== Sys2Proof/Machine/TimersKeys.lean ====
section
/-! DEFINITION. Timers, keys and the start of a key wait: the meanings of spec/45_timers_keys.md. The tick of the same step comes
after each of them (R97). -/

namespace Sys2Proof.Machine

/-- `Fx07` LD Vx, DT: DT before this step's tick (R191). -/
def execLdVxDt (x : RegIdx) (s : State) : Host.Outcome State Fault Refusal :=
  .next (s.resultOnly x s.dt)

/-- `Fx15` LD DT, Vx (R192). -/
def execLdDtVx (x : RegIdx) (s : State) : Host.Outcome State Fault Refusal :=
  .next ({ s with dt := s.readV x }.advance 2)

/-- `Fx18` LD ST, Vx (R193). -/
def execLdStVx (x : RegIdx) (s : State) : Host.Outcome State Fault Refusal :=
  .next ({ s with st := s.readV x }.advance 2)

/-- `Ex9E` SKP: skip if the key `V[x] mod 16` is pressed (R194, R196). -/
def execSkp (x : RegIdx) (s : State) : Host.Outcome State Fault Refusal :=
  .next (s.skipIf (s.keyDown (s.keyOf x)))

/-- `ExA1` SKNP: skip if the key `V[x] mod 16` is not pressed (R195, R196). -/
def execSknp (x : RegIdx) (s : State) : Host.Outcome State Fault Refusal :=
  .next (s.skipIf (!s.keyDown (s.keyOf x)))

/-- `Fx0A` LD Vx, K: the wait starts; PC and `V[x]` stay, and the keys are not looked at (R198). -/
def execLdVxK (x : RegIdx) (s : State) : Host.Outcome State Fault Refusal :=
  .next { s with await := some x }

end Sys2Proof.Machine
end

