-- ==== Sys2Proof/Machine/Step.lean ====
section
/-! DEFINITION. One step of the core (spec/40_step_cycle.md R90), and the word of an instruction laid where a step fetches. -/

namespace Sys2Proof.Machine

/-- `Step(rnd)` of R90: halted, nothing changes (R91); waiting, the key check, the tick and the bookkeeping, no fetch (R95);
otherwise fetch (R92), decode (R93) and execute one instruction, then the tick and the bookkeeping unless it faulted (R97,
R98, R100); an unsupported word is a no-operation (R96) whose report is `State.report` (Machine/Ports.lean). -/
def step (s : State) : Host.Outcome State Fault Refusal :=
  if s.fault = .running then
    match s.await with
    | some r => .next (s.keyWaitStep r).endStep
    | none =>
      match decodeWord s.fetchWord with
      | some i => settle (exec i s)
      | none => .next s.unsupportedStep
  else .next s

/-- The state with the instruction of `nbits` bits `w`, numbered as spec/opcode_table.json numbers them, stored where the
next step fetches (notes/assumptions/11.md). -/
def State.withFetchWord (s : State) (nbits w : Nat) : State := s.placeWord (tableWord nbits w)

end Sys2Proof.Machine
end

