-- ==== Sys2Proof/Machine/Ports.lean ====
section
/-! DEFINITION. The output ports of the core (spec/00_scope.md R8): what the host reads and no instruction does. None is state
of its own. -/

namespace Sys2Proof.Machine

/-- The code of a fault as the 2-bit port shows it (R8, R38, R211). -/
def FaultCode.code : FaultCode → BitVec 2
  | .running => 0
  | .stackUnderflow => 1
  | .stackOverflow => 2

/-- Port `fault` (R8, R211). -/
def State.faultPort (s : State) : BitVec 2 := s.fault.code

/-- Port `awaiting_key`: 1 exactly when AWAIT is not none (R36, R199). -/
def State.awaitingKey (s : State) : Bool := s.await.isSome

/-- `ReadRedraw`, port `redraw` (R8, R246, R250). -/
def State.redrawPort (s : State) : Bool := s.redraw

/-- `ReadFB`, port `fb`: the 2048 cells, cell 0 first (R8, R250). -/
def State.readFB (s : State) : List Bool := (List.range 2048).map s.cell

/-- The report of the step taken from `s`, as R14 and R90 give it: `some (w, pc)` when that step fetches the unsupported
word `w` at `pc`, `none` for every other step, the halted and waiting ones among them (R214, D12). It is the outputs
`unsup`, `unsup_word`, `unsup_pc` of that step, and nothing is latched (notes/assumptions/6.md). -/
def State.report (s : State) : Option (Word × Word) :=
  if s.fault = .running ∧ s.await = none then
    match decodeWord s.fetchWord with
    | some _ => none
    | none => some (s.fetchWord, s.pc)
  else none

/-- Whether the step from `s` to `t` had the outcome `Fault(state', code)` of R14: it raised a fault (R100, R212). -/
def faultedStep (s t : State) : Bool := s.fault == .running && t.fault != .running

end Sys2Proof.Machine
end

