-- ==== Sys2Proof/Machine/HostOps.lean ====
section
/-! DEFINITION. The host's operations on the core, which fall between steps (spec/00_scope.md R7; spec/70_reset_and_hazards.md
R246 to R250), and the system of core and host (notes/assumptions/7.md). -/

namespace Sys2Proof.Machine

/-- The bytes copied into memory from an address up (R247). -/
def Memory.loadBytes (m : Memory) (addr : Nat) : List Byte → Memory
  | [] => m
  | b :: bs => (m.write addr b).loadBytes (addr + 1) bs

/-- `KEYS[k] <- b` (R249). -/
def State.keysWrite (s : State) (k : Nibble) (b : Bool) : State :=
  { s with keys := if b then s.keys ||| BitVec.twoPow 16 k.toNat else s.keys &&& ~~~(BitVec.twoPow 16 k.toNat) }

/-- `REDRAW <- 0` (R250). -/
def State.ackRedraw (s : State) : State := { s with redraw := false }

/-- `Reset` in any state (R240): every piece of state at its reset value, the glyph table of this hardware installed. The
index of the next random byte runs on, so that draws after a reset are independent of those before (R143). -/
def State.resetOf (s : State) : State :=
  { State.reset with mem := { glyph := s.mem.glyph, cells := [] }, draws := s.draws }

/-- The core and what the host's protocol remembers: whether Load is still allowed (R246). -/
structure System where
  core : State
  loadOpen : Bool
  deriving DecidableEq, Repr

/-- The host's operations that change anything (R246). -/
inductive Action where
  /-- `Reset`, any time (R240) -/
  | reset
  /-- `Load(bytes)`, once, after Reset and before the first Step (R247) -/
  | load (bytes : List Byte)
  /-- `Step`, any time (R90) -/
  | step
  /-- `KeysWrite(k, b)`, any time (R249) -/
  | keysWrite (k : Nibble) (b : Bool)
  /-- `AckRedraw`, any time (R250) -/
  | ackRedraw
  deriving DecidableEq, Repr

/-- A system right after reset, as it is when the host begins (R243). -/
def System.start : System := { core := State.reset, loadOpen := true }

/-- `Load(bytes)` (R247): refused when not allowed (D19), LoadError above 3584 bytes with nothing copied, otherwise the bytes
stand from 0x200 on. -/
def System.load (y : System) (bytes : List Byte) : Host.Outcome System Fault Refusal :=
  if y.loadOpen then
    (if wellFormedImage bytes then
      .next { core := { y.core with mem := y.core.mem.loadBytes Config.programBase bytes }, loadOpen := false }
    else .fault .loadError)
  else .refused .loadNotAllowed

/-- A step taken by the host; after it no Load is allowed (R246). -/
def System.step (y : System) : Host.Outcome System Fault Refusal :=
  match Sys2Proof.Machine.step y.core with
  | .next t => .next { core := t, loadOpen := false }
  | .fault f => .fault f
  | .refused r => .refused r

/-- One operation of the host (R246). -/
def System.apply (y : System) : Action → Host.Outcome System Fault Refusal
  | .reset => .next { core := y.core.resetOf, loadOpen := true }
  | .load bytes => y.load bytes
  | .step => y.step
  | .keysWrite k b => .next { y with core := y.core.keysWrite k b }
  | .ackRedraw => .next { y with core := y.core.ackRedraw }

/-- The systems that host operations lead to from a system right after reset (R41). A Load that answers LoadError or is refused
leaves the system as it was. -/
inductive Reachable : System → Prop where
  | start : Reachable System.start
  | apply {y z : System} (a : Action) (h : Reachable y) (e : y.apply a = .next z) : Reachable z

end Sys2Proof.Machine
end

