-- ==== Sys2Proof/Safety.lean ====
section
/-! DEFINITION. The terms claims use: the parts of the state an operation leaves alone, the invariants of spec/10_state.md R41
and what a sprite lights (spec/44_display.md R174). -/

namespace Sys2Proof.Machine

/-- The parts of the state, all of it but PC. -/
inductive Part where
  | regs | ireg | stack | mem | fb | redraw | dt | st | keys | kprev | await | fault | draws
  deriving DecidableEq, Repr

/-- The part is in `t` as it was in `s`; of memory and display, that every cell reads as it did. -/
def Part.Kept (s t : State) : Part → Prop
  | .regs => ∀ r, t.readV r = s.readV r
  | .ireg => t.ireg = s.ireg
  | .stack => t.sp = s.sp ∧ ∀ j : Fin 16, t.stack[j] = s.stack[j]
  | .mem => ∀ a, t.memRead a = s.memRead a
  | .fb => ∀ c, t.cell c = s.cell c
  | .redraw => t.redraw = s.redraw
  | .dt => t.dt = s.dt
  | .st => t.st = s.st
  | .keys => t.keys = s.keys
  | .kprev => t.kprev = s.kprev
  | .await => t.await = s.await
  | .fault => t.fault = s.fault
  | .draws => t.draws = s.draws

/-- Every part but the listed ones, and PC apart, is as it was: the frame of an operation. -/
def KeepsAllBut (s t : State) (parts : List Part) : Prop := ∀ p, p ∉ parts → p.Kept s t

/-- The reduced address lies in the read-only glyph table 0x050 to 0x09F (R51). -/
abbrev InGlyphTable (a : Nat) : Prop := 0x050 ≤ a % 4096 ∧ a % 4096 ≤ 0x09F

/-- A set bit of the `n`-row sprite at I, drawn at column `vx` and row `vy`, falls on cell `c` (R174). -/
def SpriteLights (s : State) (vx vy : Byte) (n : Nibble) (c : Nat) : Prop :=
  ∃ row col : Nat, row < n.toNat ∧ col < 8 ∧
    (s.memRead ((s.ireg.toNat + row) % 4096)).getLsbD (7 - col) = true ∧
    c = ((vy.toNat + row) % 32) * 64 + (vx.toNat + col) % 64

/-- The same for the sprite `Dxyn` draws in `s`, at (`V[x]`, `V[y]`) (R174). -/
def Lights (s : State) (x y : RegIdx) (n : Nibble) (c : Nat) : Prop := SpriteLights s (s.readV x) (s.readV y) n c

/-- Key `k` shows a press edge (R200). -/
abbrev PressEdge (s : State) (k : Nat) : Prop := s.keys.getLsbD k = true ∧ s.kprev.getLsbD k = false

/-- What holds of every state the core can be in (R41, R219, R211), for the glyph bytes `g` of the hardware. The bounds on
V, SP, DT, ST, FB and FAULT that R41 also lists hold by their types. -/
structure Inv (g : Vector Byte 80) (s : State) : Prop where
  /-- memory is in its canonical form -/
  canonical : s.mem.wf
  /-- `MEM[0x050 + i] = GLYPH[i]` (R41) -/
  glyphs : ∀ i : Fin 80, s.memRead (0x050 + i.val) = g[i]
  /-- `I < 4096` (R41, R23) -/
  iLow : s.ireg.toNat < 4096
  /-- a waiting core has PC at the `Fr0A` it waits in (R41, R199) -/
  waiting : ∀ r, s.await = some r → s.fetchWord = 0xF#4 ++ r ++ 0x0A#8
  /-- a core halted by StackUnderflow has an empty stack, PC at the RET, and waits for no key (R211, R219) -/
  underflow : s.fault = .stackUnderflow → s.sp.val = 0 ∧ s.fetchWord = 0x00EE#16 ∧ s.await = none
  /-- a core halted by StackOverflow has a full stack, PC at the CALL, and waits for no key (R211, R219) -/
  overflow : s.fault = .stackOverflow → s.sp.val = 16 ∧ opField s.fetchWord = 0x2#4 ∧ s.await = none

/-- `Inv` of the core, and that the core runs and waits for no key while Load is still allowed (R246). -/
structure SystemInv (g : Vector Byte 80) (y : System) : Prop where
  core : Inv g y.core
  fresh : y.loadOpen = true → y.core.await = none ∧ y.core.fault = .running

end Sys2Proof.Machine
end

