-- ==== Sys2Proof/Certificates/Slice0/Obligations.lean ====
section
/-! DEFINITION. The statements for the provers, made from the numbered rules of spec/. -/

open Sys2Proof Sys2Proof.Machine

/-- For every instruction, with every operand at every value the encoding admits, its two bytes followed by any bytes
decode to that instruction and leave those bytes over. [30_encoding.md section 3 (R72), 30_encoding.md section 6
(R76), R52] -/
def Obligations.DecodeOfEncodeIsTheInstruction : Prop :=
  ∀ (i : Instr) (rest : List Byte), decode (encodeBytes i ++ rest) = .ok (i, rest)

/-- If a word decodes to an instruction then encoding that instruction gives the word back: no bit of a supported word
is dropped, the ignored y of SHR and SHL included. [30_encoding.md section 2 (R71), 30_encoding.md section 6 (R76)] -/
def Obligations.EncodeOfDecodeIsTheWord : Prop :=
  ∀ (w : Word) (i : Instr), decodeWord w = some i → encode i = w

/-- At most one row of the opcode map fits a word; a word that decodes to an instruction fits that instruction's row; a
word that fits a row decodes to an instruction of that row. [30_encoding.md section 5 (R75), 30_encoding.md section
6 (R76)] -/
def Obligations.DecodeFollowsTheOpcodeMap : Prop :=
  (∀ w : Word, ∀ r ∈ opTable, ∀ q ∈ opTable, r.fits w = true → q.fits w = true → r = q) ∧
  (∀ (w : Word) (i : Instr), decodeWord w = some i → i.row ∈ opTable ∧ i.row.fits w = true) ∧
  (∀ w : Word, ∀ r ∈ opTable, r.fits w = true → ∃ i, decodeWord w = some i ∧ i.row = r)

/-- 220A is CALL 20A, 8126 is SHR V1 with y = 2, D012 is DRW V0, V1, 2, F20A is LD V2, K, F255 is LD [I], V2, and 00E1
is no instruction. [95_test_vectors.md part 2, 30_encoding.md section 5 (R75)] -/
def Obligations.WordsOfTheSpecDecodeAsItSays : Prop :=
  decodeWord 0x220A#16 = some (.call 0x20A#12) ∧ decodeWord 0x8126#16 = some (.shr 1#4 2#4) ∧
  decodeWord 0xD012#16 = some (.drw 0#4 1#4 2#4) ∧ decodeWord 0xF20A#16 = some (.ldVxK 2#4) ∧
  decodeWord 0xF255#16 = some (.ldMemVx 2#4) ∧ decodeWord 0x00E1#16 = none

/-- In a core that runs and waits for no key, when the two bytes at PC decode to an instruction: exec of that
instruction answers a next state u, and the step answers u after the timer tick and the key bookkeeping if u has no
fault, and u as it is if the instruction raised a fault. That a fault is a next state, where R14 and R100 give the
outcome Fault, is the model's form (log 1); the frozen state is the spec's decision D10 and the key bookkeeping its
decision D7 (log 13). [40_step_cycle.md section 1 (R90, R93), R97, R98, R100] -/
def Obligations.StepRunsTheDecodedInstruction : Prop :=
  ∀ (s : State) (i : Instr), s.fault = .running → s.await = none →
    decode [s.memRead s.pc.toNat, s.memRead (s.pc.toNat + 1)] = .ok (i, []) →
    ∃ u, exec i s = .next u ∧ step s = .next (if u.fault = .running then u.tick.latchKeys else u)

/-- The fetched word is 256 times the byte at PC mod 4096 plus the byte at (PC + 1) mod 4096, in every state. [R92] -/
def Obligations.FetchReadsTwoBytesHighByteFirst : Prop :=
  ∀ s : State, s.fetchWord.toNat =
    256 * (s.memRead (s.pc.toNat % 4096)).toNat + (s.memRead ((s.pc.toNat + 1) % 4096)).toNat

/-- A step of a halted core answers the very state it started from, and carries no report (the spec's decision D10, log
13). [40_step_cycle.md section 1 (R91)] -/
def Obligations.HaltedStepChangesNothing : Prop :=
  ∀ s : State, s.fault ≠ .running → step s = .next s ∧ s.report = none

/-- For a running core: RET with SP = 0 leads to the same state but for FAULT = 1, CALL with SP = 16 to the same state
but for FAULT = 2; and a step that leads from FAULT = 0 to another value of FAULT is one of these two. No vector, no
tick, no bookkeeping (the spec's decision D10, log 13; the outcome Fault(state', code) of R14 is this next state,
log 1). [40_step_cycle.md section 4 (R100), 60_exceptions.md section 2 (R212, R215, R216)] -/
def Obligations.StepFaultsOnlyAtAnEmptyRetOrAFullCall : Prop :=
  (∀ s : State, s.fault = .running → s.await = none → decodeWord s.fetchWord = some .ret → s.sp.val = 0 →
    step s = .next { s with fault := .stackUnderflow } ∧ ({ s with fault := .stackUnderflow } : State).faultPort = 1#2) ∧
  (∀ (s : State) (nnn : Addr), s.fault = .running → s.await = none → decodeWord s.fetchWord = some (.call nnn) →
    s.sp.val = 16 →
    step s = .next { s with fault := .stackOverflow } ∧ ({ s with fault := .stackOverflow } : State).faultPort = 2#2) ∧
  (∀ s t : State, step s = .next t → s.fault = .running → t.fault ≠ .running → s.await = none ∧
    ((decodeWord s.fetchWord = some .ret ∧ s.sp.val = 0 ∧ t = { s with fault := .stackUnderflow }) ∨
     ((∃ nnn, decodeWord s.fetchWord = some (.call nnn)) ∧ s.sp.val = 16 ∧ t = { s with fault := .stackOverflow })))

/-- From every state a step answers a next state; no step of this model answers a fault or a refusal. Where R14 and R100
give a faulting step the outcome Fault(state', code), the model answers state' as a next state, its own choice of
form (log 1). [00_scope.md section 5 (R14), 40_step_cycle.md section 5 (R101), 60_exceptions.md section 5 (R218)] -/
def Obligations.EveryStepAnswersANextState : Prop :=
  ∀ s : State, ∃ t, step s = .next t

/-- For every step from a running core to a running core: KPREV takes KEYS and KEYS stays; DT is one less than what the
instruction left (V[x] after LD DT, Vx, else the old DT), floor 0; ST likewise (V[x] after LD ST, Vx). KPREV is the
spec's decision D7 (log 13). [40_step_cycle.md section 2 (R97), 40_step_cycle.md section 3 (R98)] -/
def Obligations.EveryLiveStepEndsWithTickAndKeyLatch : Prop :=
  ∀ s t : State, step s = .next t → s.fault = .running → t.fault = .running →
    t.kprev = s.keys ∧ t.keys = s.keys ∧
    (∀ x, s.await = none → decodeWord s.fetchWord = some (.ldDtVx x) → t.dt.toNat = (s.readV x).toNat - 1) ∧
    ((∀ x, ¬ (s.await = none ∧ decodeWord s.fetchWord = some (.ldDtVx x))) → t.dt.toNat = s.dt.toNat - 1) ∧
    (∀ x, s.await = none → decodeWord s.fetchWord = some (.ldStVx x) → t.st.toNat = (s.readV x).toNat - 1) ∧
    ((∀ x, ¬ (s.await = none ∧ decodeWord s.fetchWord = some (.ldStVx x))) → t.st.toNat = s.st.toNat - 1)

/-- A word does not decode exactly when the table of R79 lists it; a running, non-waiting core that fetches such a word
reports the word and its PC, and its step adds 2 to PC (modulo 65536), ticks the timers, latches the keys, and
changes nothing else. The report is read from State.report (log 6); the no-operation and the key bookkeeping are the
spec's decisions D12 and D7 (log 13). [30_encoding.md section 7 (R79), 40_step_cycle.md section 1 (R96),
40_step_cycle.md section 3 (R98), 60_exceptions.md section 3 (R214)] -/
def Obligations.UnsupportedWordsAreNopsWithAReport : Prop :=
  (∀ w : Word, decodeWord w = none ↔
    (opField w = 0x0#4 ∧ w ≠ 0x00E0#16 ∧ w ≠ 0x00EE#16) ∨
    (opField w = 0x5#4 ∧ nField w ≠ 0x0#4) ∨
    (opField w = 0x8#4 ∧ nField w ∈ [0x8#4, 0x9#4, 0xA#4, 0xB#4, 0xC#4, 0xD#4, 0xF#4]) ∨
    (opField w = 0x9#4 ∧ nField w ≠ 0x0#4) ∨
    (opField w = 0xE#4 ∧ kkField w ∉ [0x9E#8, 0xA1#8]) ∨
    (opField w = 0xF#4 ∧
      kkField w ∉ [0x07#8, 0x0A#8, 0x15#8, 0x18#8, 0x1E#8, 0x29#8, 0x33#8, 0x55#8, 0x65#8])) ∧
  (∀ s : State, s.fault = .running → s.await = none → decodeWord s.fetchWord = none →
    s.report = some (s.fetchWord, s.pc) ∧
    ∃ t, step s = .next t ∧ t.pc.toNat = (s.pc.toNat + 2) % 65536 ∧
      t.dt.toNat = s.dt.toNat - 1 ∧ t.st.toNat = s.st.toNat - 1 ∧ t.kprev = s.keys ∧
      KeepsAllBut s t [.dt, .st, .kprev])

/-- A step carries the report (w, pc) exactly when the core runs and waits for no key, w is the word it fetches, pc its
PC, and w matches no instruction; and then the step adds 2 to PC, ticks and latches the keys, and leaves FAULT 0
(the spec's decision D12: an output of the step, not latched, log 6). [60_exceptions.md section 3 (R214)] -/
def Obligations.ReportIsRaisedOnlyByAnUnsupportedWord : Prop :=
  ∀ (s : State) (w p : Word), (s.report = some (w, p) ↔
      s.fault = .running ∧ s.await = none ∧ w = s.fetchWord ∧ p = s.pc ∧ decodeWord w = none) ∧
    (s.report = some (w, p) → ∃ t, step s = .next t ∧ t.pc = s.pc + 2 ∧ t.fault = .running ∧
      t = { s with pc := t.pc, dt := countDown s.dt, st := countDown s.st, kprev := s.keys })

/-- With AWAIT = some r in a running core, and no fetch: if k is the lowest key pressed now and released at the end of
the previous step, the step writes k to V[r], adds 2 to PC and clears AWAIT; if no key shows an edge, registers, PC
and AWAIT stay. Either way the timers count down and KPREV takes KEYS, and nothing else changes (the spec's decision
D7, log 13). [45_timers_keys.md section 4 (R200), 40_step_cycle.md section 1 (R95)] -/
def Obligations.WaitingStepTakesTheLowestPressEdge : Prop :=
  ∀ (s : State) (r : RegIdx), s.fault = .running → s.await = some r →
    (∀ k : Nibble, PressEdge s k.toNat → (∀ j < k.toNat, ¬ PressEdge s j) →
      ∃ t, step s = .next t ∧ t.await = none ∧ t.pc.toNat = (s.pc.toNat + 2) % 65536 ∧
        (∀ q, t.readV q = if q = r then k.setWidth 8 else s.readV q) ∧
        t.dt.toNat = s.dt.toNat - 1 ∧ t.st.toNat = s.st.toNat - 1 ∧ t.kprev = s.keys ∧
        KeepsAllBut s t [.regs, .await, .dt, .st, .kprev]) ∧
    ((∀ k < 16, ¬ PressEdge s k) →
      ∃ t, step s = .next t ∧ t.pc = s.pc ∧
        t.dt.toNat = s.dt.toNat - 1 ∧ t.st.toNat = s.st.toNat - 1 ∧ t.kprev = s.keys ∧
        KeepsAllBut s t [.dt, .st, .kprev])

/-- For every step: from none, AWAIT becomes some x exactly when the running core executed LD Vx, K; from some r in a
running core, it becomes none when a key shows a press edge and stays some r otherwise; in a halted core it stays. A
press edge is seen as R200 says (the spec's decision D7) and a halted core is frozen (its decision D10, log 13). The
output awaiting_key is 1 exactly when AWAIT is not none. [10_state.md section 9 (R36), 45_timers_keys.md section 4
(R198, R200), 40_step_cycle.md section 1 (R91)] -/
def Obligations.AwaitIsSetByLdVxKAndClearedByAPressEdge : Prop :=
  (∀ s t : State, step s = .next t →
    (s.await = none → ∀ x, t.await = some x ↔ s.fault = .running ∧ decodeWord s.fetchWord = some (.ldVxK x)) ∧
    (∀ r, s.await = some r → s.fault = .running → (∃ k < 16, PressEdge s k) → t.await = none) ∧
    (∀ r, s.await = some r → s.fault = .running → (∀ k < 16, ¬ PressEdge s k) → t.await = some r) ∧
    (s.fault ≠ .running → t.await = s.await)) ∧
  (∀ s : State, s.awaitingKey = true ↔ s.await ≠ none)

/-- For every step: an executed DRW leaves REDRAW 1, an executed CLS leaves it raised if it was or if CLS_RAISES_REDRAW
holds, every other step leaves it as it was; AckRedraw makes it 0. It holds for both values of the open parameter
(log 3). [R37] -/
def Obligations.RedrawIsRaisedByDrawingAndClearedByTheHostOnly : Prop :=
  (∀ s t : State, step s = .next t →
    (∀ x y n, s.fault = .running → s.await = none → decodeWord s.fetchWord = some (.drw x y n) → t.redraw = true) ∧
    (s.fault = .running → s.await = none → decodeWord s.fetchWord = some .cls →
      t.redraw = (s.redraw || Config.clsRaisesRedraw)) ∧
    ((∀ x y n, ¬ (s.fault = .running ∧ s.await = none ∧ decodeWord s.fetchWord = some (.drw x y n))) →
      ¬ (s.fault = .running ∧ s.await = none ∧ decodeWord s.fetchWord = some .cls) → t.redraw = s.redraw)) ∧
  (∀ s : State, s.ackRedraw.redraw = false)

/-- For every step, a cell of 0x050 to 0x09F reads as before; and if the step does not execute LD B, Vx or LD [I], Vx,
every cell reads as before. [10_state.md section 13 (R42), R30, R57] -/
def Obligations.OnlyTheStoresWriteMemoryAndNeverTheGlyphTable : Prop :=
  ∀ s t : State, step s = .next t →
    (∀ a, InGlyphTable a → t.memRead a = s.memRead a) ∧
    ((∀ x, ¬ (s.fault = .running ∧ s.await = none ∧
        (decodeWord s.fetchWord = some (.ldB x) ∨ decodeWord s.fetchWord = some (.ldMemVx x)))) →
      ∀ a, t.memRead a = s.memRead a)

/-- For every instruction that answers a next state: a jump leaves its target in PC, CALL and RET their target or, when
they fault, the old PC, LD Vx, K the old PC, a skip PC + 2 or PC + 4, and every other instruction PC + 2. The two
faulting cases are R100, R112 and R113, read as next states (log 1). [10_state.md section 3 (R25, R26),
40_step_cycle.md section 1 (R94), 40_step_cycle.md section 4 (R100), 41_control_flow.md section 2 (R111, R112, R113,
R114), 41_control_flow.md section 3 (R115)] -/
def Obligations.PcMovesByTwoOrFourOrToATarget : Prop :=
  ∀ (i : Instr) (s t : State), exec i s = .next t →
    match i with
    | .jp nnn => t.pc.toNat = nnn.toNat
    | .call nnn => if s.sp.val = 16 then t.pc = s.pc else t.pc.toNat = nnn.toNat
    | .ret => (s.sp.val = 0 → t.pc = s.pc) ∧ (∀ j : Fin 16, j.val + 1 = s.sp.val → t.pc = s.stack[j])
    | .jpV0 nnn => t.pc.toNat = ((s.readV 0).toNat + nnn.toNat) % 4096
    | .ldVxK _ => t.pc = s.pc
    | .seImm _ _ | .sneImm _ _ | .seReg _ _ | .sneReg _ _ | .skp _ | .sknp _ =>
      t.pc.toNat = (s.pc.toNat + 2) % 65536 ∨ t.pc.toNat = (s.pc.toNat + 4) % 65536
    | _ => t.pc.toNat = (s.pc.toNat + 2) % 65536

/-- If PC is even and the step does not execute JP, CALL, RET or JP V0, PC is even after the step; a halted and a
waiting core execute nothing, whatever word stands at PC. [10_state.md section 3 (R26)] -/
def Obligations.PcStaysEvenUnlessItIsSet : Prop :=
  ∀ s t : State, step s = .next t → s.pc.toNat % 2 = 0 →
    (∀ nnn, ¬ (s.fault = .running ∧ s.await = none ∧
      (decodeWord s.fetchWord = some (.jp nnn) ∨ decodeWord s.fetchWord = some (.call nnn) ∨
        decodeWord s.fetchWord = some (.jpV0 nnn)))) →
    ¬ (s.fault = .running ∧ s.await = none ∧ decodeWord s.fetchWord = some .ret) →
    t.pc.toNat % 2 = 0

/-- If a step leads from s to t, then from s with any other value of ST it leads to t with some value of ST: nothing
else depends on ST. The two steps are compared for the same random byte, which the model has because the count of
draws is equal in both; that is the model's choice (log 2) and says nothing about the bytes of two runs of the
hardware. [10_state.md section 7 (R33), 45_timers_keys.md section 1 (R190), 40_step_cycle.md section 6 (R102),
42_load_alu.md section 5 (R143)] -/
def Obligations.SoundTimerInfluencesNothingElse : Prop :=
  ∀ (s t : State) (v : Byte), step s = .next t → ∃ w, step { s with st := v } = .next { t with st := w }

/-- For every step, the model's counter of consumed random bytes rises by 1 when the running, non-waiting core executes
RND, and stays otherwise. [42_load_alu.md section 5 (R143), 10_state.md section 10 (R39)] -/
def Obligations.OnlyRndConsumesRandomBytes : Prop :=
  ∀ s t : State, step s = .next t →
    (∀ x kk, s.fault = .running → s.await = none → decodeWord s.fetchWord = some (.rnd x kk) → t.draws = s.draws + 1) ∧
    ((∀ x kk, ¬ (s.fault = .running ∧ s.await = none ∧ decodeWord s.fetchWord = some (.rnd x kk))) → t.draws = s.draws)

/-- When a running, non-waiting core fetches 1nnn at PC = nnn, the step leaves PC and everything but the timers and
KPREV as they were. [40_step_cycle.md section 5 (R101), R111] -/
def Obligations.JumpToItselfChangesNothingButTimers : Prop :=
  ∀ (s : State) (nnn : Addr), s.fault = .running → s.await = none → s.fetchWord = 0x1#4 ++ nnn → s.pc.toNat = nnn.toNat →
    ∃ t, step s = .next t ∧ t.pc = s.pc ∧ KeepsAllBut s t [.dt, .st, .kprev]

/-- Inv holds of State.reset with the glyph bytes it holds, of any state after the host's Reset with the glyph bytes
that state holds, and SystemInv of the system a host begins with. [10_state.md section 12 (R41), 10_state.md section
11 (R40)] -/
def Obligations.ResetStatesMeetTheInvariant : Prop :=
  Inv State.reset.mem.glyph State.reset ∧ (∀ s : State, Inv s.mem.glyph s.resetOf) ∧
  SystemInv System.start.core.mem.glyph System.start

/-- For every state that meets Inv for some glyph bytes, every next state of a step meets Inv for the same glyph bytes.
[10_state.md section 12 (R41), R57, 60_exceptions.md section 6 (R219), 45_timers_keys.md section 4 (R199)] -/
def Obligations.EveryStepKeepsTheInvariant : Prop :=
  ∀ (g : Vector Byte 80) (s t : State), Inv g s → step s = .next t → Inv g t

/-- For every system that meets SystemInv, every operation of the host that answers a next system answers one that meets
it, for the same glyph bytes (the protocol of R246, log 7). [10_state.md section 12 (R41), 70_reset_and_hazards.md
section 3 (R246), R247] -/
def Obligations.EveryHostOperationKeepsTheSystemInvariant : Prop :=
  ∀ (g : Vector Byte 80) (y z : System) (a : Action), SystemInv g y → y.apply a = .next z → SystemInv g z

/-- Every system reachable from reset by host operations, with any program loaded, has a core that meets Inv for the
glyph bytes of the reset state. The host's protocol is that of log 7, and the glyph bytes of State.reset are the
default of log 4. [10_state.md section 12 (R41), 70_reset_and_hazards.md section 3 (R246)] -/
def Obligations.ReachableCoresMeetTheInvariant : Prop :=
  ∀ y : System, Reachable y → Inv State.reset.mem.glyph y.core

/-- Two memories in canonical form that answer the same byte at every address are equal. [10_state.md section 5 (R29,
R30), 20_memory.md section 1 (R50)] -/
def Obligations.CanonicalMemoriesThatReadAlikeAreEqual : Prop :=
  ∀ m n : Memory, m.wf → n.wf → (∀ a < 4096, m.read a = n.read a) → m = n

/-- The state after reset, at power-on or by Reset in any state, has PC = 0x200, memory 0 outside the glyph table and
GLYPH inside it, and V, I, SP, the stack slots, FB, DT, ST, KEYS, KPREV, AWAIT, REDRAW, FAULT at 0 or none (the
values the source does not give are the spec's decision D2, log 5); Reset keeps the hardware's glyph bytes.
[10_state.md section 11 (R40), 70_reset_and_hazards.md section 1 (R240, R241)] -/
def Obligations.ResetLeavesTheValuesOfTheResetTable : Prop :=
  (∀ t : State, (t = State.reset ∨ ∃ s : State, t = s.resetOf) →
    t.pc.toNat = 0x200 ∧
    (∀ i : Fin 80, t.memRead (0x050 + i.val) = t.mem.glyph[i]) ∧
    (∀ a < 4096, ¬ InGlyphTable a → t.memRead a = 0) ∧
    (∀ c, t.cell c = false) ∧ (∀ r, t.readV r = 0) ∧ t.ireg = 0 ∧ t.sp.val = 0 ∧ (∀ j : Fin 16, t.stack[j] = 0) ∧
    t.dt = 0 ∧ t.st = 0 ∧ t.keys = 0 ∧ t.kprev = 0 ∧ t.await = none ∧ t.redraw = false ∧ t.fault = .running) ∧
  (∀ s : State, s.resetOf.mem.glyph = s.mem.glyph)

/-- While Load is allowed: an image of more than 3584 bytes answers LoadError with nothing changed; a shorter one is
copied so that byte k stands at 0x200 + k, every other cell and everything else of the core stays, and Load is no
longer allowed. Otherwise Load is refused. Reset allows it again, a step ends it (the spec's decision D19, log 7).
[70_reset_and_hazards.md section 3 (R247)] -/
def Obligations.LoadCopiesTheImageOrChangesNothing : Prop :=
  ∀ (y : System) (bytes : List Byte),
    (y.loadOpen = true → 3584 < bytes.length → y.load bytes = .fault .loadError) ∧
    (y.loadOpen = true → bytes.length ≤ 3584 →
      ∃ z, y.load bytes = .next z ∧ z.loadOpen = false ∧
        (∀ (k : Nat) (h : k < bytes.length), z.core.memRead (0x200 + k) = bytes[k]) ∧
        (∀ a < 4096, (a < 0x200 ∨ 0x200 + bytes.length ≤ a) → z.core.memRead a = y.core.memRead a) ∧
        z.core.pc = y.core.pc ∧ KeepsAllBut y.core z.core [.mem]) ∧
    (y.loadOpen = false → y.load bytes = .refused .loadNotAllowed) ∧
    (∀ z, y.step = .next z → z.loadOpen = false) ∧ (∀ z, y.apply .reset = .next z → z.loadOpen = true)

/-- After KeysWrite(k, b) key k reads b, every other key as before, and nothing else of the core changes, KPREV and PC
included. [R249] -/
def Obligations.KeysWriteSetsOneKey : Prop :=
  ∀ (s : State) (k : Nibble) (b : Bool), (s.keysWrite k b).keyDown k = b ∧
    (∀ j : Nibble, j ≠ k → (s.keysWrite k b).keyDown j = s.keyDown j) ∧
    (s.keysWrite k b).pc = s.pc ∧ KeepsAllBut s (s.keysWrite k b) [.keys]

/-- ReadFB answers 2048 values, value c being cell c; AckRedraw leaves REDRAW 0 and everything else, FB included, as it
was. [R250] -/
def Obligations.ReadFbShowsTheCellsAndAckRedrawClearsTheFlag : Prop :=
  ∀ s : State, s.readFB.length = 2048 ∧ (∀ c < 2048, s.readFB[c]? = some (s.cell c)) ∧
    s.redrawPort = s.redraw ∧ s.ackRedraw.redraw = false ∧ s.ackRedraw.pc = s.pc ∧ KeepsAllBut s s.ackRedraw [.redraw]

/-- 1nnn decodes to JP nnn, which from every state answers a state with PC = nnn and everything else as it was. [R111] -/
def Obligations.JpSetsPc : Prop :=
  ∀ (nnn : Addr) (s : State), decodeWord (0x1#4 ++ nnn) = some (.jp nnn) ∧
    ∃ t, exec (.jp nnn) s = .next t ∧ t.pc.toNat = nnn.toNat ∧ t.pc.toNat < 4096 ∧ KeepsAllBut s t []

/-- 2nnn decodes to CALL nnn; with SP below 16 it answers a state in which slot SP holds (PC + 2) mod 65536, SP is one
more, PC = nnn and every other slot and part is as it was; with SP = 16 it answers the same state with FAULT =
StackOverflow, the Fault outcome of R100 read as a next state (log 1; that nothing else changes is the spec's
decision D10, log 13). [41_control_flow.md section 2 (R112), 60_exceptions.md section 2 (R212, R216),
40_step_cycle.md section 4 (R100)] -/
def Obligations.CallPushesTheReturnAddress : Prop :=
  ∀ (nnn : Addr) (s : State), decodeWord (0x2#4 ++ nnn) = some (.call nnn) ∧
    (s.sp.val < 16 → ∃ t, exec (.call nnn) s = .next t ∧ t.sp.val = s.sp.val + 1 ∧
      (∀ j : Fin 16, t.stack[j].toNat = if j.val = s.sp.val then (s.pc.toNat + 2) % 65536 else s.stack[j].toNat) ∧
      t.pc.toNat = nnn.toNat ∧ KeepsAllBut s t [.stack]) ∧
    (s.sp.val = 16 → exec (.call nnn) s = .next { s with fault := .stackOverflow })

/-- 00EE decodes to RET; with SP above 0 it answers a state in which SP is one less, PC is the word of slot SP - 1, and
every slot and other part is as it was; with SP = 0 it answers the same state with FAULT = StackUnderflow, the Fault
outcome of R100 read as a next state (log 1; that nothing else changes is the spec's decision D10, log 13).
[41_control_flow.md section 2 (R113), 60_exceptions.md section 2 (R212, R215), 40_step_cycle.md section 4 (R100)] -/
def Obligations.RetPopsPc : Prop :=
  decodeWord 0x00EE#16 = some .ret ∧
  ∀ s : State,
    (0 < s.sp.val → ∃ t, exec .ret s = .next t ∧ t.sp.val + 1 = s.sp.val ∧
      (∀ j : Fin 16, j.val + 1 = s.sp.val → t.pc = s.stack[j]) ∧ (∀ j : Fin 16, t.stack[j] = s.stack[j]) ∧
      KeepsAllBut s t [.stack]) ∧
    (s.sp.val = 0 → exec .ret s = .next { s with fault := .stackUnderflow })

/-- If CALL answers t with room on the stack, then RET in any state with the stack of t answers a state with PC = PC of
the CALL plus 2 and SP as before the CALL. [90_conflicts.md C1, R112, R113] -/
def Obligations.RetAfterCallResumesAfterTheCall : Prop :=
  ∀ (nnn : Addr) (s t u : State), s.sp.val < 16 → exec (.call nnn) s = .next t → u.sp = t.sp → u.stack = t.stack →
    ∃ v, exec .ret u = .next v ∧ v.pc.toNat = (s.pc.toNat + 2) % 65536 ∧ v.sp = s.sp

/-- Bnnn decodes to JP V0, nnn, which from every state answers a state with PC = (V[0] + nnn) mod 4096 and everything
else as it was. [R114] -/
def Obligations.JpV0AddsV0Modulo4096 : Prop :=
  ∀ (nnn : Addr) (s : State), decodeWord (0xB#4 ++ nnn) = some (.jpV0 nnn) ∧
    ∃ t, exec (.jpV0 nnn) s = .next t ∧ t.pc.toNat = ((s.readV 0x0#4).toNat + nnn.toNat) % 4096 ∧ KeepsAllBut s t []

/-- 3xkk and 4xkk decode to SE Vx, kk and SNE Vx, kk; from every state they answer a state with PC + 4 when V[x] = kk
(SE), V[x] ≠ kk (SNE), and PC + 2 otherwise, modulo 65536, and everything else as it was. [R116, R117] -/
def Obligations.ImmediateSkipsCompareWithKk : Prop :=
  ∀ (x : RegIdx) (kk : Byte) (s : State),
    decodeWord (0x3#4 ++ x ++ kk) = some (.seImm x kk) ∧ decodeWord (0x4#4 ++ x ++ kk) = some (.sneImm x kk) ∧
    (∃ t, exec (.seImm x kk) s = .next t ∧
      t.pc.toNat = (s.pc.toNat + if s.readV x = kk then 4 else 2) % 65536 ∧ KeepsAllBut s t []) ∧
    (∃ t, exec (.sneImm x kk) s = .next t ∧
      t.pc.toNat = (s.pc.toNat + if s.readV x ≠ kk then 4 else 2) % 65536 ∧ KeepsAllBut s t [])

/-- 5xy0 and 9xy0 decode to SE Vx, Vy and SNE Vx, Vy; from every state, x = y included, they answer a state with PC + 4
when V[x] = V[y] (SE), V[x] ≠ V[y] (SNE), and PC + 2 otherwise, modulo 65536, and everything else as it was; 5xyN
and 9xyN with N not 0 are unsupported. [R118, R119] -/
def Obligations.RegisterSkipsCompareTwoRegisters : Prop :=
  ∀ (x y : RegIdx) (s : State),
    decodeWord (0x5#4 ++ x ++ y ++ 0x0#4) = some (.seReg x y) ∧
    decodeWord (0x9#4 ++ x ++ y ++ 0x0#4) = some (.sneReg x y) ∧
    (∀ n : Nibble, n ≠ 0 → decodeWord (0x5#4 ++ x ++ y ++ n) = none ∧ decodeWord (0x9#4 ++ x ++ y ++ n) = none) ∧
    (∃ t, exec (.seReg x y) s = .next t ∧
      t.pc.toNat = (s.pc.toNat + if s.readV x = s.readV y then 4 else 2) % 65536 ∧ KeepsAllBut s t []) ∧
    (∃ t, exec (.sneReg x y) s = .next t ∧
      t.pc.toNat = (s.pc.toNat + if s.readV x ≠ s.readV y then 4 else 2) % 65536 ∧ KeepsAllBut s t [])

/-- 6xkk and 7xkk decode to LD Vx, kk and ADD Vx, kk; from every state they answer a state with V[x] = kk, respectively
(V[x] + kk) mod 256, every other register as it was (VF too unless x = F), PC + 2, and everything else as it was.
[R131, R132] -/
def Obligations.ImmediateLoadAndAddWriteVx : Prop :=
  ∀ (x : RegIdx) (kk : Byte) (s : State),
    decodeWord (0x6#4 ++ x ++ kk) = some (.ldImm x kk) ∧ decodeWord (0x7#4 ++ x ++ kk) = some (.addImm x kk) ∧
    (∃ t, exec (.ldImm x kk) s = .next t ∧ (∀ r, t.readV r = if r = x then kk else s.readV r) ∧
      t.pc.toNat = (s.pc.toNat + 2) % 65536 ∧ KeepsAllBut s t [.regs]) ∧
    (∃ t, exec (.addImm x kk) s = .next t ∧
      (∀ r, (t.readV r).toNat = if r = x then ((s.readV x).toNat + kk.toNat) % 256 else (s.readV r).toNat) ∧
      t.pc.toNat = (s.pc.toNat + 2) % 65536 ∧ KeepsAllBut s t [.regs])

/-- 8xy0 to 8xy3 decode to LD, OR, AND, XOR Vx, Vy; from every state they answer a state with V[x] = V[y], the bitwise
or, and, exclusive or of V[x] and V[y], every other register as it was, PC + 2, and everything else as it was.
[R133, R134, R135, R136] -/
def Obligations.MoveAndLogicWriteVxOnly : Prop :=
  ∀ (x y : RegIdx) (s : State),
    decodeWord (0x8#4 ++ x ++ y ++ 0x0#4) = some (.ldReg x y) ∧ decodeWord (0x8#4 ++ x ++ y ++ 0x1#4) = some (.orReg x y) ∧
    decodeWord (0x8#4 ++ x ++ y ++ 0x2#4) = some (.andReg x y) ∧ decodeWord (0x8#4 ++ x ++ y ++ 0x3#4) = some (.xorReg x y) ∧
    (∃ t, exec (.ldReg x y) s = .next t ∧ (∀ r, t.readV r = if r = x then s.readV y else s.readV r) ∧
      t.pc.toNat = (s.pc.toNat + 2) % 65536 ∧ KeepsAllBut s t [.regs]) ∧
    (∃ t, exec (.orReg x y) s = .next t ∧
      (∀ r, t.readV r = if r = x then s.readV x ||| s.readV y else s.readV r) ∧
      t.pc.toNat = (s.pc.toNat + 2) % 65536 ∧ KeepsAllBut s t [.regs]) ∧
    (∃ t, exec (.andReg x y) s = .next t ∧
      (∀ r, t.readV r = if r = x then s.readV x &&& s.readV y else s.readV r) ∧
      t.pc.toNat = (s.pc.toNat + 2) % 65536 ∧ KeepsAllBut s t [.regs]) ∧
    (∃ t, exec (.xorReg x y) s = .next t ∧
      (∀ r, t.readV r = if r = x then s.readV x ^^^ s.readV y else s.readV r) ∧
      t.pc.toNat = (s.pc.toNat + 2) % 65536 ∧ KeepsAllBut s t [.regs])

/-- 8xy4 decodes to ADD Vx, Vy; from every state it answers a state in which VF is 1 if V[x] + V[y] was above 255 and 0
otherwise, V[x] (if it is not VF) is the sum modulo 256, every other register as it was, PC + 2, and everything else
as it was; the operands are the old values, VF as y included. [R137] -/
def Obligations.AddWritesSumThenCarry : Prop :=
  ∀ (x y : RegIdx) (s : State), decodeWord (0x8#4 ++ x ++ y ++ 0x4#4) = some (.addReg x y) ∧
    ∃ t, exec (.addReg x y) s = .next t ∧
      (∀ r, (t.readV r).toNat =
        if r = 0xF#4 then (if (s.readV x).toNat + (s.readV y).toNat > 255 then 1 else 0)
        else if r = x then ((s.readV x).toNat + (s.readV y).toNat) % 256 else (s.readV r).toNat) ∧
      t.pc.toNat = (s.pc.toNat + 2) % 65536 ∧ KeepsAllBut s t [.regs]

/-- 8xy5 and 8xy7 decode to SUB and SUBN Vx, Vy; with a = V[x] and b = V[y] before, they answer from every state a state
in which VF is 1 if a ≥ b (SUB), b ≥ a (SUBN), else 0, V[x] (if it is not VF) is a - b, respectively b - a, modulo
256, every other register as it was, PC + 2, and everything else as it was. [R138, R140] -/
def Obligations.SubtractionsWriteDifferenceThenNoBorrow : Prop :=
  ∀ (x y : RegIdx) (s : State),
    decodeWord (0x8#4 ++ x ++ y ++ 0x5#4) = some (.subReg x y) ∧ decodeWord (0x8#4 ++ x ++ y ++ 0x7#4) = some (.subnReg x y) ∧
    (∃ t, exec (.subReg x y) s = .next t ∧
      (∀ r, (t.readV r).toNat =
        if r = 0xF#4 then (if (s.readV x).toNat ≥ (s.readV y).toNat then 1 else 0)
        else if r = x then ((s.readV x).toNat + 256 - (s.readV y).toNat) % 256 else (s.readV r).toNat) ∧
      t.pc.toNat = (s.pc.toNat + 2) % 65536 ∧ KeepsAllBut s t [.regs]) ∧
    (∃ t, exec (.subnReg x y) s = .next t ∧
      (∀ r, (t.readV r).toNat =
        if r = 0xF#4 then (if (s.readV y).toNat ≥ (s.readV x).toNat then 1 else 0)
        else if r = x then ((s.readV y).toNat + 256 - (s.readV x).toNat) % 256 else (s.readV r).toNat) ∧
      t.pc.toNat = (s.pc.toNat + 2) % 65536 ∧ KeepsAllBut s t [.regs])

/-- 8xy6 and 8xyE decode to SHR and SHL for every y; with a = V[x] before, they answer from every state a state in which
VF is a mod 2 (SHR), a div 128 (SHL), V[x] (if it is not VF) is a div 2, respectively 2a mod 256, every other
register as it was, PC + 2, and everything else as it was; y plays no part. [R139, R141] -/
def Obligations.ShiftsWriteVxThenTheLostBit : Prop :=
  ∀ (x y : RegIdx) (s : State),
    decodeWord (0x8#4 ++ x ++ y ++ 0x6#4) = some (.shr x y) ∧ decodeWord (0x8#4 ++ x ++ y ++ 0xE#4) = some (.shl x y) ∧
    (∃ t, exec (.shr x y) s = .next t ∧
      (∀ r, (t.readV r).toNat =
        if r = 0xF#4 then (s.readV x).toNat % 2
        else if r = x then (s.readV x).toNat / 2 else (s.readV r).toNat) ∧
      t.pc.toNat = (s.pc.toNat + 2) % 65536 ∧ KeepsAllBut s t [.regs]) ∧
    (∃ t, exec (.shl x y) s = .next t ∧
      (∀ r, (t.readV r).toNat =
        if r = 0xF#4 then (s.readV x).toNat / 128
        else if r = x then 2 * (s.readV x).toNat % 256 else (s.readV r).toNat) ∧
      t.pc.toNat = (s.pc.toNat + 2) % 65536 ∧ KeepsAllBut s t [.regs])

/-- Cxkk decodes to RND Vx, kk; from every state it answers a state with V[x] = r & kk, r being the free byte of this
execution (any value), every other register as it was, PC + 2, the model's draw counter one more, and everything
else as it was (the counter and the byte taken at it are the model's choice, log 2); the same is stated for RND on
any given byte r. [42_load_alu.md section 5 (R142, R143)] -/
def Obligations.RndWritesARandomByteAndKk : Prop :=
  ∀ (x : RegIdx) (kk : Byte) (s : State), decodeWord (0xC#4 ++ x ++ kk) = some (.rnd x kk) ∧
    (∃ t, exec (.rnd x kk) s = .next t ∧
      (∀ r, t.readV r = if r = x then Config.rndIn s.draws &&& kk else s.readV r) ∧
      t.pc.toNat = (s.pc.toNat + 2) % 65536 ∧ t.draws = s.draws + 1 ∧ KeepsAllBut s t [.regs, .draws]) ∧
    (∀ (b : Byte) (r : RegIdx), (s.rndWith b x kk).readV r = if r = x then b &&& kk else s.readV r)

/-- Annn, Fx1E and Fx29 decode to LD I, nnn, ADD I, Vx and LD F, Vx; from every state they answer a state with I = nnn,
(I + V[x]) mod 4096, respectively 0x050 + 5 times the whole byte V[x], PC + 2, and everything else as it was, VF
included. [R151, R153, R155] -/
def Obligations.SettingIWritesIOnly : Prop :=
  ∀ (nnn : Addr) (x : RegIdx) (s : State),
    decodeWord (0xA#4 ++ nnn) = some (.ldI nnn) ∧ decodeWord (0xF#4 ++ x ++ 0x1E#8) = some (.addI x) ∧
    decodeWord (0xF#4 ++ x ++ 0x29#8) = some (.ldF x) ∧
    (∃ t, exec (.ldI nnn) s = .next t ∧ t.ireg.toNat = nnn.toNat ∧
      t.pc.toNat = (s.pc.toNat + 2) % 65536 ∧ KeepsAllBut s t [.ireg]) ∧
    (∃ t, exec (.addI x) s = .next t ∧ t.ireg.toNat = (s.ireg.toNat + (s.readV x).toNat) % 4096 ∧
      t.pc.toNat = (s.pc.toNat + 2) % 65536 ∧ KeepsAllBut s t [.ireg]) ∧
    (∃ t, exec (.ldF x) s = .next t ∧ t.ireg.toNat = 0x050 + 5 * (s.readV x).toNat ∧
      t.pc.toNat = (s.pc.toNat + 2) % 65536 ∧ KeepsAllBut s t [.ireg])

/-- Fx33 decodes to LD B, Vx; from every state it answers a state in which, for k = 0, 1, 2, the cell (I + k) mod 4096
holds V[x] div 100, (V[x] div 10) mod 10, V[x] mod 10 unless it lies in the glyph table, every cell of the glyph
table and every other cell reads as before, PC + 2, and everything else, I included, is as it was. [R157] -/
def Obligations.LdBStoresThreeDigits : Prop :=
  ∀ (x : RegIdx) (s : State), decodeWord (0xF#4 ++ x ++ 0x33#8) = some (.ldB x) ∧
    ∃ t, exec (.ldB x) s = .next t ∧
      (∀ k < 3, ¬ InGlyphTable (s.iAddr k) → (t.memRead (s.iAddr k)).toNat =
        if k = 0 then (s.readV x).toNat / 100 else if k = 1 then (s.readV x).toNat / 10 % 10 else (s.readV x).toNat % 10) ∧
      (∀ a, (InGlyphTable a ∨ ∀ k < 3, a % 4096 ≠ s.iAddr k % 4096) → t.memRead a = s.memRead a) ∧
      t.pc.toNat = (s.pc.toNat + 2) % 65536 ∧ KeepsAllBut s t [.mem]

/-- Fx55 decodes to LD [I], Vx; from every state it answers a state in which, for k = 0 to x, the cell (I + k) mod 4096
holds V[k] unless it lies in the glyph table, every cell of the glyph table and every other cell reads as before, PC
+ 2, and everything else, I included (the spec's decision D8, log 13), is as it was. [43_index_memory.md section 3
(R159)] -/
def Obligations.LdMemStoresV0ToVx : Prop :=
  ∀ (x : RegIdx) (s : State), decodeWord (0xF#4 ++ x ++ 0x55#8) = some (.ldMemVx x) ∧
    ∃ t, exec (.ldMemVx x) s = .next t ∧
      (∀ k : RegIdx, k.toNat ≤ x.toNat → ¬ InGlyphTable (s.iAddr k.toNat) → t.memRead (s.iAddr k.toNat) = s.readV k) ∧
      (∀ a, (InGlyphTable a ∨ ∀ k ≤ x.toNat, a % 4096 ≠ s.iAddr k % 4096) → t.memRead a = s.memRead a) ∧
      t.pc.toNat = (s.pc.toNat + 2) % 65536 ∧ KeepsAllBut s t [.mem]

/-- Fx65 decodes to LD Vx, [I]; from every state it answers a state in which V[r] is the byte at (I + r) mod 4096 for r
from 0 to x and as it was above x, PC + 2, and everything else, memory and I included (the spec's decision D8, log
13), is as it was. [43_index_memory.md section 4 (R161)] -/
def Obligations.LdVxMemLoadsV0ToVx : Prop :=
  ∀ (x : RegIdx) (s : State), decodeWord (0xF#4 ++ x ++ 0x65#8) = some (.ldVxMem x) ∧
    ∃ t, exec (.ldVxMem x) s = .next t ∧
      (∀ r : RegIdx, t.readV r =
        if r.toNat ≤ x.toNat then s.memRead ((s.ireg.toNat + r.toNat) % 4096) else s.readV r) ∧
      t.pc.toNat = (s.pc.toNat + 2) % 65536 ∧ KeepsAllBut s t [.regs]

/-- If LD [I], Vx with x at least 1 stores at I equal to PC + 2 (modulo 4096), both bytes outside the glyph table, then
the word fetched in the state it answers is V[0] followed by V[1]. [20_memory.md section 8 (R63), R159] -/
def Obligations.AStoreIsSeenByTheNextFetch : Prop :=
  ∀ (x : RegIdx) (s : State), 1 ≤ x.toNat → s.ireg.toNat % 4096 = (s.pc.toNat + 2) % 4096 →
    ¬ InGlyphTable s.ireg.toNat → ¬ InGlyphTable (s.ireg.toNat + 1) →
    ∃ t, exec (.ldMemVx x) s = .next t ∧ t.fetchWord = s.readV 0x0#4 ++ s.readV 0x1#4

/-- 00E0 decodes to CLS, which from every state answers a state with every cell 0, REDRAW raised if it was or if the
open parameter CLS_RAISES_REDRAW holds (for both its values, log 3), PC + 2, and everything else as it was, VF
included. [R172] -/
def Obligations.ClsClearsEveryCell : Prop :=
  decodeWord 0x00E0#16 = some .cls ∧
  ∀ s : State, ∃ t, exec .cls s = .next t ∧ (∀ c, t.cell c = false) ∧
    t.redraw = (s.redraw || Config.clsRaisesRedraw) ∧
    t.pc.toNat = (s.pc.toNat + 2) % 65536 ∧ KeepsAllBut s t [.fb, .redraw]

/-- Dxyn decodes to DRW Vx, Vy, n; from every state it answers a state in which a cell is inverted when a set bit of the
n sprite rows at I falls on it (row and column wrapped separately) and is as it was otherwise, VF is 1 if such a
cell was 1 and 0 otherwise, REDRAW is 1, the other registers are as they were, PC + 2, and everything else, I
included, is as it was; the coordinates are the old V[x] and V[y], VF included. [R174, R175] -/
def Obligations.DrwXorsTheSpriteAndFlagsCollision : Prop :=
  ∀ (x y : RegIdx) (n : Nibble) (s : State), decodeWord (0xD#4 ++ x ++ y ++ n) = some (.drw x y n) ∧
    ∃ t, exec (.drw x y n) s = .next t ∧
      (∀ c, (Lights s x y n c → t.cell c = !s.cell c) ∧ (¬ Lights s x y n c → t.cell c = s.cell c)) ∧
      ((∃ c, Lights s x y n c ∧ s.cell c = true) → t.readV 0xF#4 = 1) ∧
      ((¬ ∃ c, Lights s x y n c ∧ s.cell c = true) → t.readV 0xF#4 = 0) ∧
      (∀ r, r ≠ 0xF#4 → t.readV r = s.readV r) ∧ t.redraw = true ∧
      t.pc.toNat = (s.pc.toNat + 2) % 65536 ∧ KeepsAllBut s t [.regs, .fb, .redraw]

/-- From every state DRW Vx, Vy, 0 answers a state with the same display, VF = 0, REDRAW = 1, PC + 2 and everything else
as it was. [44_display.md section 3 (R177)] -/
def Obligations.DrwOfNoRowsOnlyClearsVfAndRaisesRedraw : Prop :=
  ∀ (x y : RegIdx) (s : State), ∃ t, exec (.drw x y 0x0#4) s = .next t ∧ (∀ c, t.cell c = s.cell c) ∧
    (∀ r, t.readV r = if r = 0xF#4 then 0 else s.readV r) ∧ t.redraw = true ∧
    t.pc.toNat = (s.pc.toNat + 2) % 65536 ∧ KeepsAllBut s t [.regs, .redraw]

/-- For x and y other than F and any state: two executions of DRW Vx, Vy, n in a row leave every cell as it was; the
second leaves VF = 1 if some set bit of the sprite fell on a cell that was 0 at first, and VF = 0 if none did; if
some set bit fell on a cell that is 1 after the first draw, the second leaves VF = 1; and if the sprite has a set
bit, one of the two draws leaves VF = 1. This is what R174 gives; R178's inference that any set bit makes the second
VF 1 does not follow from R174 (log 15). [44_display.md section 3 (R174, R178)] -/
def Obligations.DrawingTwiceRestoresTheDisplay : Prop :=
  ∀ (x y : RegIdx) (n : Nibble) (s : State), x ≠ 0xF#4 → y ≠ 0xF#4 →
    ∃ t u, exec (.drw x y n) s = .next t ∧ exec (.drw x y n) t = .next u ∧ (∀ c, u.cell c = s.cell c) ∧
      ((∃ c, Lights s x y n c ∧ s.cell c = false) → u.readV 0xF#4 = 1) ∧
      ((¬ ∃ c, Lights s x y n c ∧ s.cell c = false) → u.readV 0xF#4 = 0) ∧
      ((∃ c, Lights s x y n c ∧ t.cell c = true) → u.readV 0xF#4 = 1) ∧
      ((∃ c, Lights s x y n c) → t.readV 0xF#4 = 1 ∨ u.readV 0xF#4 = 1)

/-- Fx07, Fx15 and Fx18 decode to LD Vx, DT, LD DT, Vx and LD ST, Vx; from every state they answer a state with V[x] =
DT, DT = V[x], respectively ST = V[x], PC + 2, and everything else as it was; after the end of the same step the
timer just set or read is one less, floor 0. [R191, R192, R193] -/
def Obligations.TimerInstructionsMoveDtAndSt : Prop :=
  ∀ (x : RegIdx) (s : State),
    decodeWord (0xF#4 ++ x ++ 0x07#8) = some (.ldVxDt x) ∧ decodeWord (0xF#4 ++ x ++ 0x15#8) = some (.ldDtVx x) ∧
    decodeWord (0xF#4 ++ x ++ 0x18#8) = some (.ldStVx x) ∧
    (∃ t, exec (.ldVxDt x) s = .next t ∧ (∀ r, t.readV r = if r = x then s.dt else s.readV r) ∧
      t.endStep.dt.toNat = s.dt.toNat - 1 ∧ t.pc.toNat = (s.pc.toNat + 2) % 65536 ∧ KeepsAllBut s t [.regs]) ∧
    (∃ t, exec (.ldDtVx x) s = .next t ∧ t.dt = s.readV x ∧ t.endStep.dt.toNat = (s.readV x).toNat - 1 ∧
      t.pc.toNat = (s.pc.toNat + 2) % 65536 ∧ KeepsAllBut s t [.dt]) ∧
    (∃ t, exec (.ldStVx x) s = .next t ∧ t.st = s.readV x ∧ t.endStep.st.toNat = (s.readV x).toNat - 1 ∧
      t.pc.toNat = (s.pc.toNat + 2) % 65536 ∧ KeepsAllBut s t [.st])

/-- Ex9E and ExA1 decode to SKP Vx and SKNP Vx; from every state they answer a state with PC + 4 when key V[x] mod 16 is
pressed (SKP), not pressed (SKNP), and PC + 2 otherwise, modulo 65536, and everything else as it was (R196 is the
spec's decision D6, log 13). [45_timers_keys.md section 3 (R194, R195, R196)] -/
def Obligations.KeySkipsTestTheKeyOfTheLowNibble : Prop :=
  ∀ (x : RegIdx) (s : State),
    decodeWord (0xE#4 ++ x ++ 0x9E#8) = some (.skp x) ∧ decodeWord (0xE#4 ++ x ++ 0xA1#8) = some (.sknp x) ∧
    (∃ t, exec (.skp x) s = .next t ∧
      t.pc.toNat = (s.pc.toNat + if s.keys.getLsbD ((s.readV x).toNat % 16) = true then 4 else 2) % 65536 ∧
      KeepsAllBut s t []) ∧
    (∃ t, exec (.sknp x) s = .next t ∧
      t.pc.toNat = (s.pc.toNat + if s.keys.getLsbD ((s.readV x).toNat % 16) = false then 4 else 2) % 65536 ∧
      KeepsAllBut s t [])

/-- Fx0A decodes to LD Vx, K; from every state it answers a state with AWAIT = some x and everything else, PC included,
as it was, whatever the keys are. [R198] -/
def Obligations.LdVxKStartsTheWait : Prop :=
  ∀ (x : RegIdx) (s : State), decodeWord (0xF#4 ++ x ++ 0x0A#8) = some (.ldVxK x) ∧
    ∃ t, exec (.ldVxK x) s = .next t ∧ t.await = some x ∧ t.pc = s.pc ∧ KeepsAllBut s t [.await]

/-- For every x, y and n, F included, and every state: DRW Vx, Vy, n leaves VF = 0 or 1; the same DRW executed next
inverts exactly the cells on which a set bit of the sprite falls when it is drawn at the VF the first one left as
column where x = F and as row where y = F, and at the first state's V[x], V[y] otherwise; and it leaves VF = 1 if
one of these cells was 1 after the first draw, else VF = 0. [44_display.md section 3 (R174, R178), 10_state.md
section 1 (R22)] -/
def Obligations.ASecondDrawTakesTheFlagWhereVfIsACoordinate : Prop :=
  ∀ (x y : RegIdx) (n : Nibble) (s : State), ∃ t u, exec (.drw x y n) s = .next t ∧ exec (.drw x y n) t = .next u ∧
    (t.readV 0xF#4).toNat ≤ 1 ∧
    let vx := if x = 0xF#4 then t.readV 0xF#4 else s.readV x
    let vy := if y = 0xF#4 then t.readV 0xF#4 else s.readV y
    (∀ c, (SpriteLights s vx vy n c → u.cell c = !t.cell c) ∧ (¬ SpriteLights s vx vy n c → u.cell c = t.cell c)) ∧
    ((∃ c, SpriteLights s vx vy n c ∧ t.cell c = true) → u.readV 0xF#4 = 1) ∧
    ((¬ ∃ c, SpriteLights s vx vy n c ∧ t.cell c = true) → u.readV 0xF#4 = 0)
end

