-- ==== Sys2Proof/Laws/State.lean ====
section
/-! SUPPORT. One lemma per field per named update of the state, each true by rfl, so that no proof unfolds a record update. -/

namespace Sys2Proof.Machine

@[simp] theorem State.writeV_v (s : State) (r : RegIdx) (b : Byte) : (s.writeV r b).v = s.v.set r.toNat b (by have := r.isLt; omega) := rfl
@[simp] theorem State.writeV_ireg (s : State) (r : RegIdx) (b : Byte) : (s.writeV r b).ireg = s.ireg := rfl
@[simp] theorem State.writeV_pc (s : State) (r : RegIdx) (b : Byte) : (s.writeV r b).pc = s.pc := rfl
@[simp] theorem State.writeV_sp (s : State) (r : RegIdx) (b : Byte) : (s.writeV r b).sp = s.sp := rfl
@[simp] theorem State.writeV_stack (s : State) (r : RegIdx) (b : Byte) : (s.writeV r b).stack = s.stack := rfl
@[simp] theorem State.writeV_mem (s : State) (r : RegIdx) (b : Byte) : (s.writeV r b).mem = s.mem := rfl
@[simp] theorem State.writeV_fb (s : State) (r : RegIdx) (b : Byte) : (s.writeV r b).fb = s.fb := rfl
@[simp] theorem State.writeV_dt (s : State) (r : RegIdx) (b : Byte) : (s.writeV r b).dt = s.dt := rfl
@[simp] theorem State.writeV_st (s : State) (r : RegIdx) (b : Byte) : (s.writeV r b).st = s.st := rfl
@[simp] theorem State.writeV_keys (s : State) (r : RegIdx) (b : Byte) : (s.writeV r b).keys = s.keys := rfl
@[simp] theorem State.writeV_kprev (s : State) (r : RegIdx) (b : Byte) : (s.writeV r b).kprev = s.kprev := rfl
@[simp] theorem State.writeV_await (s : State) (r : RegIdx) (b : Byte) : (s.writeV r b).await = s.await := rfl
@[simp] theorem State.writeV_redraw (s : State) (r : RegIdx) (b : Byte) : (s.writeV r b).redraw = s.redraw := rfl
@[simp] theorem State.writeV_fault (s : State) (r : RegIdx) (b : Byte) : (s.writeV r b).fault = s.fault := rfl
@[simp] theorem State.writeV_draws (s : State) (r : RegIdx) (b : Byte) : (s.writeV r b).draws = s.draws := rfl

@[simp] theorem State.advance_v (s : State) (k : Word) : (s.advance k).v = s.v := rfl
@[simp] theorem State.advance_ireg (s : State) (k : Word) : (s.advance k).ireg = s.ireg := rfl
@[simp] theorem State.advance_pc (s : State) (k : Word) : (s.advance k).pc = s.pc + k := rfl
@[simp] theorem State.advance_sp (s : State) (k : Word) : (s.advance k).sp = s.sp := rfl
@[simp] theorem State.advance_stack (s : State) (k : Word) : (s.advance k).stack = s.stack := rfl
@[simp] theorem State.advance_mem (s : State) (k : Word) : (s.advance k).mem = s.mem := rfl
@[simp] theorem State.advance_fb (s : State) (k : Word) : (s.advance k).fb = s.fb := rfl
@[simp] theorem State.advance_dt (s : State) (k : Word) : (s.advance k).dt = s.dt := rfl
@[simp] theorem State.advance_st (s : State) (k : Word) : (s.advance k).st = s.st := rfl
@[simp] theorem State.advance_keys (s : State) (k : Word) : (s.advance k).keys = s.keys := rfl
@[simp] theorem State.advance_kprev (s : State) (k : Word) : (s.advance k).kprev = s.kprev := rfl
@[simp] theorem State.advance_await (s : State) (k : Word) : (s.advance k).await = s.await := rfl
@[simp] theorem State.advance_redraw (s : State) (k : Word) : (s.advance k).redraw = s.redraw := rfl
@[simp] theorem State.advance_fault (s : State) (k : Word) : (s.advance k).fault = s.fault := rfl
@[simp] theorem State.advance_draws (s : State) (k : Word) : (s.advance k).draws = s.draws := rfl

@[simp] theorem State.memWrite_v (s : State) (a : Nat) (b : Byte) : (s.memWrite a b).v = s.v := rfl
@[simp] theorem State.memWrite_ireg (s : State) (a : Nat) (b : Byte) : (s.memWrite a b).ireg = s.ireg := rfl
@[simp] theorem State.memWrite_pc (s : State) (a : Nat) (b : Byte) : (s.memWrite a b).pc = s.pc := rfl
@[simp] theorem State.memWrite_sp (s : State) (a : Nat) (b : Byte) : (s.memWrite a b).sp = s.sp := rfl
@[simp] theorem State.memWrite_stack (s : State) (a : Nat) (b : Byte) : (s.memWrite a b).stack = s.stack := rfl
@[simp] theorem State.memWrite_mem (s : State) (a : Nat) (b : Byte) : (s.memWrite a b).mem = s.mem.write a b := rfl
@[simp] theorem State.memWrite_fb (s : State) (a : Nat) (b : Byte) : (s.memWrite a b).fb = s.fb := rfl
@[simp] theorem State.memWrite_dt (s : State) (a : Nat) (b : Byte) : (s.memWrite a b).dt = s.dt := rfl
@[simp] theorem State.memWrite_st (s : State) (a : Nat) (b : Byte) : (s.memWrite a b).st = s.st := rfl
@[simp] theorem State.memWrite_keys (s : State) (a : Nat) (b : Byte) : (s.memWrite a b).keys = s.keys := rfl
@[simp] theorem State.memWrite_kprev (s : State) (a : Nat) (b : Byte) : (s.memWrite a b).kprev = s.kprev := rfl
@[simp] theorem State.memWrite_await (s : State) (a : Nat) (b : Byte) : (s.memWrite a b).await = s.await := rfl
@[simp] theorem State.memWrite_redraw (s : State) (a : Nat) (b : Byte) : (s.memWrite a b).redraw = s.redraw := rfl
@[simp] theorem State.memWrite_fault (s : State) (a : Nat) (b : Byte) : (s.memWrite a b).fault = s.fault := rfl
@[simp] theorem State.memWrite_draws (s : State) (a : Nat) (b : Byte) : (s.memWrite a b).draws = s.draws := rfl

@[simp] theorem State.tick_v (s : State) : (s.tick).v = s.v := rfl
@[simp] theorem State.tick_ireg (s : State) : (s.tick).ireg = s.ireg := rfl
@[simp] theorem State.tick_pc (s : State) : (s.tick).pc = s.pc := rfl
@[simp] theorem State.tick_sp (s : State) : (s.tick).sp = s.sp := rfl
@[simp] theorem State.tick_stack (s : State) : (s.tick).stack = s.stack := rfl
@[simp] theorem State.tick_mem (s : State) : (s.tick).mem = s.mem := rfl
@[simp] theorem State.tick_fb (s : State) : (s.tick).fb = s.fb := rfl
@[simp] theorem State.tick_dt (s : State) : (s.tick).dt = countDown s.dt := rfl
@[simp] theorem State.tick_st (s : State) : (s.tick).st = countDown s.st := rfl
@[simp] theorem State.tick_keys (s : State) : (s.tick).keys = s.keys := rfl
@[simp] theorem State.tick_kprev (s : State) : (s.tick).kprev = s.kprev := rfl
@[simp] theorem State.tick_await (s : State) : (s.tick).await = s.await := rfl
@[simp] theorem State.tick_redraw (s : State) : (s.tick).redraw = s.redraw := rfl
@[simp] theorem State.tick_fault (s : State) : (s.tick).fault = s.fault := rfl
@[simp] theorem State.tick_draws (s : State) : (s.tick).draws = s.draws := rfl

@[simp] theorem State.latchKeys_v (s : State) : (s.latchKeys).v = s.v := rfl
@[simp] theorem State.latchKeys_ireg (s : State) : (s.latchKeys).ireg = s.ireg := rfl
@[simp] theorem State.latchKeys_pc (s : State) : (s.latchKeys).pc = s.pc := rfl
@[simp] theorem State.latchKeys_sp (s : State) : (s.latchKeys).sp = s.sp := rfl
@[simp] theorem State.latchKeys_stack (s : State) : (s.latchKeys).stack = s.stack := rfl
@[simp] theorem State.latchKeys_mem (s : State) : (s.latchKeys).mem = s.mem := rfl
@[simp] theorem State.latchKeys_fb (s : State) : (s.latchKeys).fb = s.fb := rfl
@[simp] theorem State.latchKeys_dt (s : State) : (s.latchKeys).dt = s.dt := rfl
@[simp] theorem State.latchKeys_st (s : State) : (s.latchKeys).st = s.st := rfl
@[simp] theorem State.latchKeys_keys (s : State) : (s.latchKeys).keys = s.keys := rfl
@[simp] theorem State.latchKeys_kprev (s : State) : (s.latchKeys).kprev = s.keys := rfl
@[simp] theorem State.latchKeys_await (s : State) : (s.latchKeys).await = s.await := rfl
@[simp] theorem State.latchKeys_redraw (s : State) : (s.latchKeys).redraw = s.redraw := rfl
@[simp] theorem State.latchKeys_fault (s : State) : (s.latchKeys).fault = s.fault := rfl
@[simp] theorem State.latchKeys_draws (s : State) : (s.latchKeys).draws = s.draws := rfl

@[simp] theorem State.skipIf_v (s : State) (c : Bool) : (s.skipIf c).v = s.v := rfl
@[simp] theorem State.skipIf_ireg (s : State) (c : Bool) : (s.skipIf c).ireg = s.ireg := rfl
@[simp] theorem State.skipIf_pc (s : State) (c : Bool) : (s.skipIf c).pc = s.pc + (if c then 4 else 2) := rfl
@[simp] theorem State.skipIf_sp (s : State) (c : Bool) : (s.skipIf c).sp = s.sp := rfl
@[simp] theorem State.skipIf_stack (s : State) (c : Bool) : (s.skipIf c).stack = s.stack := rfl
@[simp] theorem State.skipIf_mem (s : State) (c : Bool) : (s.skipIf c).mem = s.mem := rfl
@[simp] theorem State.skipIf_fb (s : State) (c : Bool) : (s.skipIf c).fb = s.fb := rfl
@[simp] theorem State.skipIf_dt (s : State) (c : Bool) : (s.skipIf c).dt = s.dt := rfl
@[simp] theorem State.skipIf_st (s : State) (c : Bool) : (s.skipIf c).st = s.st := rfl
@[simp] theorem State.skipIf_keys (s : State) (c : Bool) : (s.skipIf c).keys = s.keys := rfl
@[simp] theorem State.skipIf_kprev (s : State) (c : Bool) : (s.skipIf c).kprev = s.kprev := rfl
@[simp] theorem State.skipIf_await (s : State) (c : Bool) : (s.skipIf c).await = s.await := rfl
@[simp] theorem State.skipIf_redraw (s : State) (c : Bool) : (s.skipIf c).redraw = s.redraw := rfl
@[simp] theorem State.skipIf_fault (s : State) (c : Bool) : (s.skipIf c).fault = s.fault := rfl
@[simp] theorem State.skipIf_draws (s : State) (c : Bool) : (s.skipIf c).draws = s.draws := rfl

@[simp] theorem State.endStep_v (s : State) : (s.endStep).v = s.v := rfl
@[simp] theorem State.endStep_ireg (s : State) : (s.endStep).ireg = s.ireg := rfl
@[simp] theorem State.endStep_pc (s : State) : (s.endStep).pc = s.pc := rfl
@[simp] theorem State.endStep_sp (s : State) : (s.endStep).sp = s.sp := rfl
@[simp] theorem State.endStep_stack (s : State) : (s.endStep).stack = s.stack := rfl
@[simp] theorem State.endStep_mem (s : State) : (s.endStep).mem = s.mem := rfl
@[simp] theorem State.endStep_fb (s : State) : (s.endStep).fb = s.fb := rfl
@[simp] theorem State.endStep_dt (s : State) : (s.endStep).dt = countDown s.dt := rfl
@[simp] theorem State.endStep_st (s : State) : (s.endStep).st = countDown s.st := rfl
@[simp] theorem State.endStep_keys (s : State) : (s.endStep).keys = s.keys := rfl
@[simp] theorem State.endStep_kprev (s : State) : (s.endStep).kprev = s.keys := rfl
@[simp] theorem State.endStep_await (s : State) : (s.endStep).await = s.await := rfl
@[simp] theorem State.endStep_redraw (s : State) : (s.endStep).redraw = s.redraw := rfl
@[simp] theorem State.endStep_fault (s : State) : (s.endStep).fault = s.fault := rfl
@[simp] theorem State.endStep_draws (s : State) : (s.endStep).draws = s.draws := rfl

@[simp] theorem State.unsupportedStep_v (s : State) : (s.unsupportedStep).v = s.v := rfl
@[simp] theorem State.unsupportedStep_ireg (s : State) : (s.unsupportedStep).ireg = s.ireg := rfl
@[simp] theorem State.unsupportedStep_pc (s : State) : (s.unsupportedStep).pc = s.pc + 2 := rfl
@[simp] theorem State.unsupportedStep_sp (s : State) : (s.unsupportedStep).sp = s.sp := rfl
@[simp] theorem State.unsupportedStep_stack (s : State) : (s.unsupportedStep).stack = s.stack := rfl
@[simp] theorem State.unsupportedStep_mem (s : State) : (s.unsupportedStep).mem = s.mem := rfl
@[simp] theorem State.unsupportedStep_fb (s : State) : (s.unsupportedStep).fb = s.fb := rfl
@[simp] theorem State.unsupportedStep_dt (s : State) : (s.unsupportedStep).dt = countDown s.dt := rfl
@[simp] theorem State.unsupportedStep_st (s : State) : (s.unsupportedStep).st = countDown s.st := rfl
@[simp] theorem State.unsupportedStep_keys (s : State) : (s.unsupportedStep).keys = s.keys := rfl
@[simp] theorem State.unsupportedStep_kprev (s : State) : (s.unsupportedStep).kprev = s.keys := rfl
@[simp] theorem State.unsupportedStep_await (s : State) : (s.unsupportedStep).await = s.await := rfl
@[simp] theorem State.unsupportedStep_redraw (s : State) : (s.unsupportedStep).redraw = s.redraw := rfl
@[simp] theorem State.unsupportedStep_fault (s : State) : (s.unsupportedStep).fault = s.fault := rfl
@[simp] theorem State.unsupportedStep_draws (s : State) : (s.unsupportedStep).draws = s.draws := rfl

@[simp] theorem State.keysWrite_v (s : State) (k : Nibble) (b : Bool) : (s.keysWrite k b).v = s.v := rfl
@[simp] theorem State.keysWrite_ireg (s : State) (k : Nibble) (b : Bool) : (s.keysWrite k b).ireg = s.ireg := rfl
@[simp] theorem State.keysWrite_pc (s : State) (k : Nibble) (b : Bool) : (s.keysWrite k b).pc = s.pc := rfl
@[simp] theorem State.keysWrite_sp (s : State) (k : Nibble) (b : Bool) : (s.keysWrite k b).sp = s.sp := rfl
@[simp] theorem State.keysWrite_stack (s : State) (k : Nibble) (b : Bool) : (s.keysWrite k b).stack = s.stack := rfl
@[simp] theorem State.keysWrite_mem (s : State) (k : Nibble) (b : Bool) : (s.keysWrite k b).mem = s.mem := rfl
@[simp] theorem State.keysWrite_fb (s : State) (k : Nibble) (b : Bool) : (s.keysWrite k b).fb = s.fb := rfl
@[simp] theorem State.keysWrite_dt (s : State) (k : Nibble) (b : Bool) : (s.keysWrite k b).dt = s.dt := rfl
@[simp] theorem State.keysWrite_st (s : State) (k : Nibble) (b : Bool) : (s.keysWrite k b).st = s.st := rfl
@[simp] theorem State.keysWrite_kprev (s : State) (k : Nibble) (b : Bool) : (s.keysWrite k b).kprev = s.kprev := rfl
@[simp] theorem State.keysWrite_await (s : State) (k : Nibble) (b : Bool) : (s.keysWrite k b).await = s.await := rfl
@[simp] theorem State.keysWrite_redraw (s : State) (k : Nibble) (b : Bool) : (s.keysWrite k b).redraw = s.redraw := rfl
@[simp] theorem State.keysWrite_fault (s : State) (k : Nibble) (b : Bool) : (s.keysWrite k b).fault = s.fault := rfl
@[simp] theorem State.keysWrite_draws (s : State) (k : Nibble) (b : Bool) : (s.keysWrite k b).draws = s.draws := rfl

@[simp] theorem State.ackRedraw_v (s : State) : (s.ackRedraw).v = s.v := rfl
@[simp] theorem State.ackRedraw_ireg (s : State) : (s.ackRedraw).ireg = s.ireg := rfl
@[simp] theorem State.ackRedraw_pc (s : State) : (s.ackRedraw).pc = s.pc := rfl
@[simp] theorem State.ackRedraw_sp (s : State) : (s.ackRedraw).sp = s.sp := rfl
@[simp] theorem State.ackRedraw_stack (s : State) : (s.ackRedraw).stack = s.stack := rfl
@[simp] theorem State.ackRedraw_mem (s : State) : (s.ackRedraw).mem = s.mem := rfl
@[simp] theorem State.ackRedraw_fb (s : State) : (s.ackRedraw).fb = s.fb := rfl
@[simp] theorem State.ackRedraw_dt (s : State) : (s.ackRedraw).dt = s.dt := rfl
@[simp] theorem State.ackRedraw_st (s : State) : (s.ackRedraw).st = s.st := rfl
@[simp] theorem State.ackRedraw_keys (s : State) : (s.ackRedraw).keys = s.keys := rfl
@[simp] theorem State.ackRedraw_kprev (s : State) : (s.ackRedraw).kprev = s.kprev := rfl
@[simp] theorem State.ackRedraw_await (s : State) : (s.ackRedraw).await = s.await := rfl
@[simp] theorem State.ackRedraw_redraw (s : State) : (s.ackRedraw).redraw = false := rfl
@[simp] theorem State.ackRedraw_fault (s : State) : (s.ackRedraw).fault = s.fault := rfl
@[simp] theorem State.ackRedraw_draws (s : State) : (s.ackRedraw).draws = s.draws := rfl

end Sys2Proof.Machine
end

