-- ==== Sys2Proof/Laws/Memory.lean ====
section
/-! SUPPORT. The laws of memory: what a read answers after a write, and that every memory operation keeps the canonical form. -/

namespace Sys2Proof.Machine

theorem isGlyph_eq_true {a : Nat} : isGlyph a = true ↔ 0x050 ≤ a ∧ a < 0x0A0 := by
  simp [isGlyph, Config.glyphBase, Config.glyphSize]

theorem isGlyph_eq_false {a : Nat} : isGlyph a = false ↔ ¬ (0x050 ≤ a ∧ a < 0x0A0) := by
  rw [← isGlyph_eq_true, Bool.not_eq_true]

/-! ## Lists of cells -/

theorem findCell_eraseCell (cells : List Host.Cell) (a b : Nat) :
    findCell (eraseCell cells a) b = if b = a then none else findCell cells b := by
  induction cells with
  | nil => simp [eraseCell, findCell]
  | cons c rest ih =>
    simp only [eraseCell] at ih
    by_cases hc : c.1 = a
    · simp only [eraseCell, hc, bne_self_eq_false, Bool.false_eq_true, not_false_eq_true, List.filter_cons_of_neg, ih,
        findCell]
      split_ifs with h1 h2 <;> first | rfl | exact absurd h2.symm h1
    · simp only [eraseCell, bne_iff_ne, ne_eq, hc, not_false_eq_true, List.filter_cons_of_pos, findCell, ih]
      split_ifs with h1 h2 <;> first | rfl | exact absurd (h1.trans h2) hc

theorem findCell_insertCell (cells : List Host.Cell) (a b : Nat) (v : Byte) (h : findCell cells a = none) :
    findCell (insertCell a v cells) b = if b = a then some v else findCell cells b := by
  induction cells with
  | nil => simp [insertCell, findCell, eq_comm]
  | cons c rest ih =>
    simp only [findCell] at h
    split_ifs at h with hc
    simp only [insertCell]
    split_ifs with h1 h2 h3
    · simp [findCell, h2]
    · simp [findCell, Ne.symm h2]
    · subst h3; simp [findCell, hc, ih h]
    · simp [findCell, ih h, h3]

theorem findCell_setCell (cells : List Host.Cell) (a b : Nat) (v : Byte) :
    (findCell (setCell cells a v) b).getD 0 = if b = a then v else (findCell cells b).getD 0 := by
  simp only [setCell]
  split_ifs with hv hb hb
  · simp [findCell_eraseCell, hb, hv]
  · simp [findCell_eraseCell, hb]
  · subst hb; rw [findCell_insertCell _ _ _ _ (by simp [findCell_eraseCell])]; simp
  · rw [findCell_insertCell _ _ _ _ (by simp [findCell_eraseCell])]; simp [findCell_eraseCell, hb]

theorem mem_insertCell {c : Host.Cell} {a : Nat} {v : Byte} {cells : List Host.Cell} :
    c ∈ insertCell a v cells ↔ c = (a, v) ∨ c ∈ cells := by
  induction cells with
  | nil => simp [insertCell]
  | cons d rest ih =>
    simp only [insertCell]
    split_ifs
    · simp
    · simp only [List.mem_cons, ih]; tauto

theorem insertCell_pairwise {a : Nat} {v : Byte} {cells : List Host.Cell}
    (h : cells.Pairwise (fun c d => c.1 < d.1)) (hn : ∀ c ∈ cells, c.1 ≠ a) :
    (insertCell a v cells).Pairwise (fun c d => c.1 < d.1) := by
  induction cells with
  | nil => simp [insertCell]
  | cons d rest ih =>
    obtain ⟨hd, hr⟩ := List.pairwise_cons.mp h
    simp only [insertCell]
    split_ifs with hlt
    · refine List.pairwise_cons.mpr ⟨fun c hc => ?_, h⟩
      rcases List.mem_cons.mp hc with rfl | hc
      · exact hlt
      · exact hlt.trans (hd c hc)
    · refine List.pairwise_cons.mpr ⟨fun c hc => ?_, ih hr (fun c hc => hn c (List.mem_cons_of_mem _ hc))⟩
      rcases mem_insertCell.mp hc with rfl | hc
      · have := hn d List.mem_cons_self
        simp only
        omega
      · exact hd c hc

theorem mem_eraseCell {c : Host.Cell} {a : Nat} {cells : List Host.Cell} :
    c ∈ eraseCell cells a ↔ c ∈ cells ∧ c.1 ≠ a := by
  simp [eraseCell]

/-! ## Reads after writes -/

@[simp] theorem Memory.write_glyph (m : Memory) (a : Nat) (v : Byte) : (m.write a v).glyph = m.glyph := by
  simp only [Memory.write]; split_ifs <;> rfl

theorem Memory.unlisted_plain (m : Memory) {a : Nat} (h : isGlyph a = false) : m.unlisted a = 0 := by
  simp [Memory.unlisted, h]

theorem Memory.read_glyph (m : Memory) {a : Nat} (h : isGlyph (a % Config.memSize) = true) :
    m.read a = m.glyph[a % Config.memSize - Config.glyphBase]'(isGlyph_bound h) := by
  simp [Memory.read, Memory.unlisted, h]

theorem Memory.read_plain (m : Memory) {a : Nat} (h : isGlyph (a % Config.memSize) = false) :
    m.read a = (findCell m.cells (a % Config.memSize)).getD 0 := by
  simp [Memory.read, h, Memory.unlisted_plain]

/-- Reading reduces the address, so addresses equal modulo 4096 name one cell (R53). -/
theorem Memory.read_congr (m : Memory) {a b : Nat} (h : a % Config.memSize = b % Config.memSize) : m.read a = m.read b := by
  simp only [Memory.read, h]

@[simp] theorem Memory.read_mod (m : Memory) (a : Nat) : m.read (a % Config.memSize) = m.read a :=
  m.read_congr (Nat.mod_mod _ _)

/-- A read after a write: the byte written, if the write is to the same cell and not dropped, else what was there. -/
theorem Memory.read_write (m : Memory) (a b : Nat) (v : Byte) :
    (m.write a v).read b =
      if b % Config.memSize = a % Config.memSize ∧ isGlyph (a % Config.memSize) = false then v else m.read b := by
  by_cases hb : isGlyph (b % Config.memSize) = true
  · rw [Memory.read_glyph _ hb, Memory.read_glyph _ hb]
    rw [if_neg (fun h => by rw [← h.1, hb] at h; exact absurd h.2 (by decide))]
    simp
  · have hb' := Bool.not_eq_true _ ▸ hb
    rw [Memory.read_plain _ hb', Memory.read_plain _ hb']
    by_cases ha : isGlyph (a % Config.memSize) = true
    · simp [Memory.write, ha]
    · simp only [Memory.write, ha, Bool.false_eq_true, if_false, findCell_setCell]
      simp

/-! ## The canonical form -/

theorem Memory.write_wf {m : Memory} (h : m.wf) (a : Nat) (v : Byte) : (m.write a v).wf := by
  by_cases ha : isGlyph (a % Config.memSize) = true
  · simpa [Memory.write, ha] using h
  · have ha' := Bool.not_eq_true _ ▸ ha
    have keep : ∀ c ∈ eraseCell m.cells (a % Config.memSize),
        c.1 < Config.memSize ∧ isGlyph c.1 = false ∧ c.2 ≠ (m.write a v).unlisted c.1 := fun c hc => by
      obtain ⟨h1, h2, h3⟩ := h.2 c (mem_eraseCell.mp hc).1
      refine ⟨h1, h2, ?_⟩
      rwa [Memory.unlisted_plain _ h2, ← m.unlisted_plain h2]
    have cells : (m.write a v).cells = setCell m.cells (a % Config.memSize) v := by simp [Memory.write, ha]
    unfold Memory.wf
    rw [cells]
    simp only [setCell]
    split_ifs with hv
    · exact ⟨h.1.filter _, keep⟩
    · refine ⟨insertCell_pairwise (h.1.filter _) (fun c hc => (mem_eraseCell.mp hc).2), fun c hc => ?_⟩
      rcases mem_insertCell.mp hc with rfl | hc
      · refine ⟨Nat.mod_lt _ (by decide), ha', ?_⟩
        rwa [Memory.unlisted_plain _ ha']
      · exact keep c hc

theorem Memory.poke_wf {m : Memory} (h : m.wf) (a : Nat) (v : Byte) : (m.poke a v).wf := by
  simp only [Memory.poke]
  split_ifs with ha
  · refine ⟨h.1, fun c hc => ?_⟩
    obtain ⟨h1, h2, h3⟩ := h.2 c hc
    refine ⟨h1, h2, ?_⟩
    rwa [Memory.unlisted_plain _ h2, ← m.unlisted_plain h2]
  · exact Memory.write_wf h a v

theorem Memory.loadBytes_wf {m : Memory} (h : m.wf) (a : Nat) (bs : List Byte) : (m.loadBytes a bs).wf := by
  induction bs generalizing m a with
  | nil => exact h
  | cons b bs ih => exact ih (Memory.write_wf h a b) (a + 1)

/-- A read after `poke`: the byte laid down, in the same cell; what was there, elsewhere. -/
theorem Memory.read_poke (m : Memory) (a b : Nat) (v : Byte) :
    (m.poke a v).read b = if b % Config.memSize = a % Config.memSize then v else m.read b := by
  by_cases ha : isGlyph (a % Config.memSize) = true
  · simp only [Memory.poke, ha, dite_true]
    by_cases hb : isGlyph (b % Config.memSize) = true
    · rw [Memory.read_glyph _ hb, Memory.read_glyph _ hb, Vector.getElem_set]
      have h1 := isGlyph_eq_true.mp ha
      have h2 := isGlyph_eq_true.mp hb
      simp only [Config.memSize, Config.glyphBase] at *
      split_ifs <;> first | rfl | omega
    · have hb' := Bool.not_eq_true _ ▸ hb
      rw [Memory.read_plain _ hb', Memory.read_plain _ hb', if_neg (fun h => by rw [h] at hb; exact hb ha)]
  · have ha' := Bool.not_eq_true _ ▸ ha
    simp [Memory.poke, ha, Memory.read_write]

theorem State.reset_mem_wf : State.reset.mem.wf := by
  simp [Memory.wf, State.reset]

/-! ## Stores and loads of several bytes -/

theorem State.memRead_memWrite (s : State) (a b : Nat) (v : Byte) :
    (s.memWrite a v).memRead b =
      if b % Config.memSize = a % Config.memSize ∧ isGlyph (a % Config.memSize) = false then v else s.memRead b :=
  s.mem.read_write a b v

@[simp] theorem State.memRead_mod (s : State) (a : Nat) : s.memRead (a % Config.memSize) = s.memRead a := s.mem.read_mod a

theorem State.memRead_congr (s : State) {a b : Nat} (h : a % Config.memSize = b % Config.memSize) :
    s.memRead a = s.memRead b := s.mem.read_congr h

/-- Everything but memory is as it was after stores. -/
theorem State.storeBytes_eq (s : State) (a : Nat) (bs : List Byte) :
    s.storeBytes a bs = { s with mem := (s.storeBytes a bs).mem } := by
  induction bs generalizing s a with
  | nil => rfl
  | cons b bs ih => rw [State.storeBytes, ih]; rfl

/-- Stores are the copy `loadBytes` makes, seen on the memory. -/
theorem State.storeBytes_mem (s : State) (a : Nat) (bs : List Byte) :
    (s.storeBytes a bs).mem = s.mem.loadBytes a bs := by
  induction bs generalizing s a with
  | nil => rfl
  | cons b bs ih => rw [State.storeBytes, ih]; rfl

/-- A cell outside the `bs.length` cells from `a` on reads as before. -/
theorem Memory.read_loadBytes_outside (m : Memory) (a b : Nat) (bs : List Byte)
    (h : ∀ k < bs.length, b % Config.memSize ≠ (a + k) % Config.memSize) : (m.loadBytes a bs).read b = m.read b := by
  induction bs generalizing m a with
  | nil => rfl
  | cons c bs ih =>
    rw [Memory.loadBytes, ih, Memory.read_write, if_neg]
    · exact fun hc => h 0 (by simp) hc.1
    · intro k hk
      have := h (k + 1) (by simpa using hk)
      rwa [show a + (k + 1) = a + 1 + k by omega] at this

/-- A cell of the glyph table reads as before. -/
theorem Memory.read_loadBytes_glyph (m : Memory) (a b : Nat) (bs : List Byte)
    (h : isGlyph (b % Config.memSize) = true) : (m.loadBytes a bs).read b = m.read b := by
  induction bs generalizing m a with
  | nil => rfl
  | cons c bs ih =>
    rw [Memory.loadBytes, ih, Memory.read_write, if_neg]
    rintro ⟨h1, h2⟩
    rw [h1, h2] at h
    exact absurd h (by decide)

/-- Byte `k` of at most 4096 stored bytes stands at `a + k`, unless that is a cell of the glyph table. -/
theorem Memory.read_loadBytes_inside (m : Memory) (a k : Nat) (bs : List Byte) (hk : k < bs.length)
    (hl : bs.length ≤ Config.memSize) (hg : isGlyph ((a + k) % Config.memSize) = false) :
    (m.loadBytes a bs).read (a + k) = bs[k] := by
  induction bs generalizing m a k with
  | nil => simp at hk
  | cons c bs ih =>
    simp only [List.length_cons] at hk hl
    cases k with
    | zero =>
      rw [Memory.loadBytes, Memory.read_loadBytes_outside, Memory.read_write]
      · rw [if_pos ⟨by simp, by simpa using hg⟩]
        rfl
      · intro j hj
        simp only [Config.memSize] at *
        omega
    | succ k =>
      have e : a + (k + 1) = a + 1 + k := by omega
      rw [e] at hg
      rw [Memory.loadBytes, e, ih (m.write a c) (a + 1) k (by omega) (by omega) hg]
      simp

/-! ## The same in the terms claims use -/

/-- The test the operations make is the range claims speak of. -/
theorem isGlyph_mod_eq_true {a : Nat} : isGlyph (a % Config.memSize) = true ↔ InGlyphTable a := by
  rw [isGlyph_eq_true]
  simp only [InGlyphTable, Config.memSize]
  omega

theorem isGlyph_mod_eq_false {a : Nat} : isGlyph (a % Config.memSize) = false ↔ ¬ InGlyphTable a := by
  rw [← isGlyph_mod_eq_true, Bool.not_eq_true]

/-- Cell 0x050 + `i` holds GLYPH[`i`] (R30). -/
theorem Memory.read_glyphCell (m : Memory) (i : Fin 80) : m.read (0x050 + i.val) = m.glyph[i] := by
  have h1 : (0x050 + i.val) % Config.memSize = 0x050 + i.val := by simp only [Config.memSize]; omega
  have h2 : isGlyph (0x050 + i.val) = true := isGlyph_eq_true.mpr (by omega)
  rw [Memory.read_glyph _ (by rw [h1]; exact h2)]
  simp only [h1, Config.glyphBase]
  simp

/-- Byte `k` stored from `a` on is read at `a + k`, unless the glyph table dropped it (R55, R57). -/
theorem State.memRead_storeBytes_inside (s : State) (a k : Nat) (bs : List Byte) (hk : k < bs.length)
    (hl : bs.length ≤ Config.memSize) (hg : ¬ InGlyphTable (a + k)) : (s.storeBytes a bs).memRead (a + k) = bs[k] := by
  unfold State.memRead
  rw [State.storeBytes_mem]
  exact Memory.read_loadBytes_inside _ _ _ _ hk hl (isGlyph_mod_eq_false.mpr hg)

/-- A cell of the glyph table, and a cell none of the stored bytes goes to, reads as before. -/
theorem State.memRead_storeBytes_outside (s : State) (a b : Nat) (bs : List Byte)
    (h : InGlyphTable b ∨ ∀ k < bs.length, b % Config.memSize ≠ (a + k) % Config.memSize) :
    (s.storeBytes a bs).memRead b = s.memRead b := by
  unfold State.memRead
  rw [State.storeBytes_mem]
  rcases h with h | h
  · exact Memory.read_loadBytes_glyph _ _ _ _ (isGlyph_mod_eq_true.mpr h)
  · exact Memory.read_loadBytes_outside _ _ _ _ h

end Sys2Proof.Machine
end

