-- ==== Sys2Proof/Laws/Ops.lean ====
section
/-! SUPPORT. One lemma per shared operation, saying once what it does: registers, flags, stack, stores and loads, the key wait,
and the end of a step. -/

namespace Sys2Proof.Machine

/-! ## Registers and flags -/

theorem State.readV_writeV (s : State) (r q : RegIdx) (b : Byte) :
    (s.writeV r b).readV q = if q = r then b else s.readV q := by
  simp only [State.readV, State.writeV, Vector.getElem_set]
  by_cases h : q = r
  · simp [h]
  · rw [if_neg h, if_neg fun e => h (BitVec.eq_of_toNat_eq e.symm)]

/-- Operations that do not write the registers: reading one looks at `v` only. -/
theorem State.readV_congr {s t : State} (h : t.v = s.v) (r : RegIdx) : t.readV r = s.readV r := by
  simp only [State.readV, h]

@[simp] theorem State.advance_readV (s : State) (k : Word) (r : RegIdx) : (s.advance k).readV r = s.readV r := rfl
@[simp] theorem State.memWrite_readV (s : State) (a : Nat) (b : Byte) (r : RegIdx) :
    (s.memWrite a b).readV r = s.readV r := rfl
@[simp] theorem State.advance_memRead (s : State) (k : Word) (a : Nat) : (s.advance k).memRead a = s.memRead a := rfl
@[simp] theorem State.writeV_memRead (s : State) (r : RegIdx) (b : Byte) (a : Nat) :
    (s.writeV r b).memRead a = s.memRead a := rfl
@[simp] theorem State.advance_cell (s : State) (k : Word) (c : Nat) : (s.advance k).cell c = s.cell c := rfl
@[simp] theorem State.writeV_cell (s : State) (r : RegIdx) (b : Byte) (c : Nat) : (s.writeV r b).cell c = s.cell c := rfl

/-- A result without flag: the destination takes it, PC moves on by 2, nothing else changes. -/
theorem State.readV_resultOnly (s : State) (x q : RegIdx) (b : Byte) :
    (s.resultOnly x b).readV q = if q = x then b else s.readV q := by
  simp [State.resultOnly, State.readV_writeV]

/-- A result with flag: VF takes the flag whatever `x` is, then the destination the result. -/
theorem State.readV_resultThenFlag (s : State) (x q : RegIdx) (b : Byte) (c : Bool) :
    (s.resultThenFlag x b c).readV q = if q = vf then flagByte c else if q = x then b else s.readV q := by
  simp [State.resultThenFlag, State.writeFlag, State.readV_writeV]

theorem State.resultOnly_eq (s : State) (x : RegIdx) (b : Byte) :
    s.resultOnly x b = { s with v := (s.resultOnly x b).v, pc := s.pc + 2 } := rfl

theorem State.resultThenFlag_eq (s : State) (x : RegIdx) (b : Byte) (c : Bool) :
    s.resultThenFlag x b c = { s with v := (s.resultThenFlag x b c).v, pc := s.pc + 2 } := rfl

theorem carryOut_eq_true {a b : Byte} : carryOut a b = true ↔ 255 < a.toNat + b.toNat := by simp [carryOut]

theorem noBorrow_eq_true {a b : Byte} : noBorrow a b = true ↔ b.toNat ≤ a.toNat := by simp [noBorrow]

/-- `nnn` zero-extended is the same number (R73). -/
@[simp] theorem addrWord_toNat (nnn : Addr) : (addrWord nnn).toNat = nnn.toNat := by
  have := nnn.isLt
  simp only [addrWord, BitVec.toNat_setWidth]
  omega

/-! ## Stack -/

/-- A push with room: the slot at SP takes the word and SP counts one more. -/
theorem State.push_room (s : State) (w : Word) (h : s.sp.val < 16) :
    s.push w = some { s with stack := s.stack.set s.sp.val w h, sp := ⟨s.sp.val + 1, by omega⟩ } := by
  simp [State.push, h]

/-- A push on a full stack answers nothing. -/
theorem State.push_full (s : State) (w : Word) (h : s.sp.val = 16) : s.push w = none := by
  simp [State.push, h]

/-- A pop of a stack that holds something. -/
theorem State.pop_some (s : State) (h : 0 < s.sp.val) :
    s.pop = some (s.stack[s.sp.val - 1]'(by have := s.sp.isLt; omega),
      { s with sp := ⟨s.sp.val - 1, by have := s.sp.isLt; omega⟩ }) := by
  simp only [State.pop, h, dite_true]

/-- A pop of an empty stack answers nothing. -/
theorem State.pop_empty (s : State) (h : s.sp.val = 0) : s.pop = none := by
  simp [State.pop, h]

/-! ## Loads and stores of several bytes -/

/-- Everything but the registers is as it was after a load of registers. -/
theorem State.loadRegs_eq (s : State) (a n : Nat) : s.loadRegs a n = { s with v := (s.loadRegs a n).v } := by
  induction n with
  | zero => rfl
  | succ n ih => rw [State.loadRegs, ih]; rfl

/-- Register `r` takes byte `r` of the `n` loaded ones. -/
theorem State.readV_loadRegs (s : State) (a n : Nat) (hn : n ≤ 16) (r : RegIdx) :
    (s.loadRegs a n).readV r = if r.toNat < n then s.memRead (a + r.toNat) else s.readV r := by
  induction n with
  | zero => simp [State.loadRegs]
  | succ n ih =>
    rw [State.loadRegs, State.readV_writeV, ih (by omega)]
    have hn' : (BitVec.ofNat 4 n).toNat = n := by simp [BitVec.toNat_ofNat]; omega
    by_cases h : r = BitVec.ofNat 4 n
    · subst h; simp [hn']
    · have : r.toNat ≠ n := fun e => h (BitVec.eq_of_toNat_eq (by rw [hn', e]))
      simp only [h, if_false]
      split_ifs <;> first | rfl | omega

/-- The bytes `Fx55` stores, one by one. -/
theorem State.regsUpTo_getElem (s : State) (x : RegIdx) (k : Nat) (h : k < (s.regsUpTo x).length) :
    (s.regsUpTo x)[k] = s.readV (BitVec.ofNat 4 k) := by
  simp [State.regsUpTo]

@[simp] theorem State.regsUpTo_length (s : State) (x : RegIdx) : (s.regsUpTo x).length = x.toNat + 1 := by
  simp [State.regsUpTo]

/-! ## The key wait -/

/-- The lowest edge is an edge, and no lower key shows one. -/
theorem State.lowestEdge_eq_some {s : State} {k : Nibble} :
    s.lowestEdge = some k ↔ PressEdge s k.toNat ∧ ∀ j < k.toNat, ¬ PressEdge s j := by
  simp only [State.lowestEdge, Option.map_eq_some_iff, List.find?_range_eq_some, Bool.and_eq_true, Bool.not_eq_eq_eq_not,
    Bool.not_true, PressEdge]
  constructor
  · rintro ⟨n, ⟨he, hn, hl⟩, rfl⟩
    have : (BitVec.ofNat 4 n).toNat = n := by simp [BitVec.toNat_ofNat]; simpa using hn
    rw [this]
    exact ⟨he, fun j hj => by have := hl j hj; simpa using this⟩
  · rintro ⟨he, hl⟩
    exact ⟨k.toNat, ⟨he, by have := k.isLt; simpa using this, fun j hj => by have := hl j hj; simpa using this⟩, by simp⟩

/-- There is no lowest edge exactly when no key shows an edge. -/
theorem State.lowestEdge_eq_none {s : State} : s.lowestEdge = none ↔ ∀ k < 16, ¬ PressEdge s k := by
  simp only [State.lowestEdge, Option.map_eq_none_iff, List.find?_eq_none, List.mem_range, PressEdge]
  simp

/-- The waiting step either completes, with an edge, or leaves the state as it is. -/
theorem State.keyWaitStep_cases (s : State) (r : RegIdx) :
    (∃ k, s.lowestEdge = some k ∧ s.keyWaitStep r = { (s.writeV r (k.setWidth 8)).advance 2 with await := none }) ∨
      (s.lowestEdge = none ∧ s.keyWaitStep r = s) := by
  unfold State.keyWaitStep
  cases h : s.lowestEdge with
  | some k => exact .inl ⟨k, rfl, rfl⟩
  | none => exact .inr ⟨rfl, rfl⟩

/-! ## The end of a step -/

/-- A timer counts down by 1, floor 0. -/
theorem countDown_toNat (b : Byte) : (countDown b).toNat = b.toNat - 1 := by
  unfold countDown
  split_ifs with h
  · simp [h]
  · have h1 : b.toNat ≠ 0 := fun e => h (BitVec.eq_of_toNat_eq (by simpa using e))
    have h2 := b.isLt
    rw [BitVec.toNat_sub, show (1 : Byte).toNat = 1 from rfl]
    omega

theorem settle_next_running {t : State} (h : t.fault = .running) : settle (.next t) = .next t.endStep := by
  simp [settle, h]

theorem settle_next_faulted {t : State} (h : t.fault ≠ .running) : settle (.next t) = .next t := by
  simp [settle, h]

end Sys2Proof.Machine
end

