-- ==== Sys2Proof/Laws/Draw.lean ====
section
/-! SUPPORT. What the sprite engine does, row by row and pixel by pixel (spec/44_display.md R174, R177). -/

namespace Sys2Proof.Machine

/-- A set bit among the first `k` columns of a sprite row falls on cell `c`. -/
def BitsHit (b : Byte) (col row k c : Nat) : Prop := ∃ j < k, b.getLsbD (7 - j) = true ∧ c = cellIndex (col + j) row

/-- A set bit of the first `n` rows falls on cell `c`. -/
def RowsHit (sprite : Nat → Byte) (col row n c : Nat) : Prop := ∃ i < n, BitsHit (sprite i) col (row + i) 8 c

theorem cellIndex_lt (col row : Nat) : cellIndex col row < 2048 := by
  simp only [cellIndex, Config.rows, Config.columns]
  omega

/-- Cells agree exactly when their columns and rows do, modulo the size of the display. -/
theorem cellIndex_inj {a b c d : Nat} (h : cellIndex a b = cellIndex c d) : a % 64 = c % 64 ∧ b % 32 = d % 32 := by
  simp only [cellIndex, Config.rows, Config.columns] at h
  omega

theorem flipCell_fst (d : Frame × Bool) {c : Nat} (hc : c < 2048) (q : Nat) :
    (flipCell d c).1.getLsbD q = (d.1.getLsbD q ^^ decide (q = c)) := by
  simp [flipCell, hc, eq_comm]

/-- The first `k` columns of a sprite row: the cells they hit are inverted, the others stay, and a collision is recorded
when a cell they hit was 1. -/
theorem drawBits_spec (b : Byte) (col row k : Nat) (hk : k ≤ 8) (d : Frame × Bool) :
    (∀ c, (BitsHit b col row k c → (drawBits b col row k d).1.getLsbD c = !d.1.getLsbD c) ∧
      (¬ BitsHit b col row k c → (drawBits b col row k d).1.getLsbD c = d.1.getLsbD c)) ∧
    ((drawBits b col row k d).2 = true ↔ d.2 = true ∨ ∃ c, BitsHit b col row k c ∧ d.1.getLsbD c = true) := by
  induction k with
  | zero => simp [drawBits, BitsHit]
  | succ k ih =>
    obtain ⟨ih1, ih2⟩ := ih (by omega)
    have fresh : ¬ BitsHit b col row k (cellIndex (col + k) row) := by
      rintro ⟨j, hj, -, h⟩
      have := (cellIndex_inj h).1
      omega
    have step (c) : BitsHit b col row (k + 1) c ↔
        BitsHit b col row k c ∨ (b.getLsbD (7 - k) = true ∧ c = cellIndex (col + k) row) := by
      constructor
      · rintro ⟨j, hj, h⟩
        rcases Nat.lt_succ_iff_lt_or_eq.mp hj with hj | rfl
        · exact .inl ⟨j, hj, h⟩
        · exact .inr h
      · rintro (⟨j, hj, h⟩ | h)
        · exact ⟨j, by omega, h⟩
        · exact ⟨k, by omega, h⟩
    by_cases hb : b.getLsbD (7 - k) = true
    · simp only [drawBits, hb, if_true]
      refine ⟨fun c => ?_, ?_⟩
      · rw [flipCell_fst _ (cellIndex_lt _ _), step]
        by_cases hc : c = cellIndex (col + k) row
        · subst hc
          rw [(ih1 _).2 fresh]
          simp [hb]
        · simpa [hc] using ih1 c
      · simp only [flipCell, Bool.or_eq_true, ih2, (ih1 _).2 fresh, step, hb, true_and]
        constructor
        · rintro ((h | ⟨c, h1, h2⟩) | h)
          · exact .inl h
          · exact .inr ⟨c, .inl h1, h2⟩
          · exact .inr ⟨_, .inr rfl, h⟩
        · rintro (h | ⟨c, h1 | rfl, h2⟩)
          · exact .inl (.inl h)
          · exact .inl (.inr ⟨c, h1, h2⟩)
          · exact .inr h2
    · simp only [drawBits, hb, Bool.false_eq_true, if_false]
      have same (c) : BitsHit b col row (k + 1) c ↔ BitsHit b col row k c := by simp [step, hb]
      simp only [same]
      exact ⟨ih1, ih2⟩

/-- The first `n` rows, at most 32: the same for the whole sprite. -/
theorem drawRows_spec (sprite : Nat → Byte) (col row n : Nat) (hn : n ≤ 32) (d : Frame × Bool) :
    (∀ c, (RowsHit sprite col row n c → (drawRows sprite col row n d).1.getLsbD c = !d.1.getLsbD c) ∧
      (¬ RowsHit sprite col row n c → (drawRows sprite col row n d).1.getLsbD c = d.1.getLsbD c)) ∧
    ((drawRows sprite col row n d).2 = true ↔ d.2 = true ∨ ∃ c, RowsHit sprite col row n c ∧ d.1.getLsbD c = true) := by
  induction n with
  | zero => simp [drawRows, RowsHit]
  | succ n ih =>
    obtain ⟨ih1, ih2⟩ := ih (by omega)
    obtain ⟨b1, b2⟩ := drawBits_spec (sprite n) col (row + n) 8 le_rfl (drawRows sprite col row n d)
    have apart {c} (h : BitsHit (sprite n) col (row + n) 8 c) : ¬ RowsHit sprite col row n c := by
      rintro ⟨i, hi, j, -, -, rfl⟩
      obtain ⟨j', -, -, h⟩ := h
      have := (cellIndex_inj h).2
      omega
    have step (c) : RowsHit sprite col row (n + 1) c ↔ RowsHit sprite col row n c ∨ BitsHit (sprite n) col (row + n) 8 c := by
      constructor
      · rintro ⟨i, hi, h⟩
        rcases Nat.lt_succ_iff_lt_or_eq.mp hi with hi | rfl
        · exact .inl ⟨i, hi, h⟩
        · exact .inr h
      · rintro (⟨i, hi, h⟩ | h)
        · exact ⟨i, by omega, h⟩
        · exact ⟨n, by omega, h⟩
    simp only [drawRows, step]
    refine ⟨fun c => ⟨?_, fun h => ?_⟩, ?_⟩
    · rintro (h | h)
      · rw [(b1 c).2 fun hb => apart hb h, (ih1 c).1 h]
      · rw [(b1 c).1 h, (ih1 c).2 (apart h)]
    · rw [(b1 c).2 fun hb => h (.inr hb), (ih1 c).2 fun hr => h (.inl hr)]
    · rw [b2, ih2]
      constructor
      · rintro ((h | ⟨c, h1, h2⟩) | ⟨c, h1, h2⟩)
        · exact .inl h
        · exact .inr ⟨c, .inl h1, h2⟩
        · exact .inr ⟨c, .inr h1, (ih1 c).2 (apart h1) ▸ h2⟩
      · rintro (h | ⟨c, h1 | h1, h2⟩)
        · exact .inl (.inl h)
        · exact .inl (.inr ⟨c, h1, h2⟩)
        · exact .inr ⟨c, h1, by rw [(ih1 c).2 (apart h1)]; exact h2⟩

/-- The cells a sprite hits are those `Lights` names. -/
theorem rowsHit_iff_lights (s : State) (x y : RegIdx) (n : Nibble) (c : Nat) :
    RowsHit s.spriteRow (s.readV x).toNat (s.readV y).toNat n.toNat c ↔ Lights s x y n c := by
  simp only [RowsHit, BitsHit, Lights, SpriteLights, State.spriteRow, State.iAddr, cellIndex, Config.rows, Config.columns]
  have e (i : Nat) : s.memRead ((s.ireg.toNat + i) % 4096) = s.memRead (s.ireg.toNat + i) := s.memRead_mod _
  constructor
  · rintro ⟨i, hi, j, hj, h, rfl⟩
    exact ⟨i, j, hi, hj, by rwa [e], rfl⟩
  · rintro ⟨i, j, hi, hj, h, rfl⟩
    exact ⟨i, hi, j, hj, by rwa [e] at h, rfl⟩

/-- What a draw makes of the display and the collision (R174). -/
theorem State.drawn_spec (s : State) (x y : RegIdx) (n : Nibble) :
    (∀ c, (Lights s x y n c → (s.drawn x y n).1.getLsbD c = !s.cell c) ∧
      (¬ Lights s x y n c → (s.drawn x y n).1.getLsbD c = s.cell c)) ∧
    ((s.drawn x y n).2 = true ↔ ∃ c, Lights s x y n c ∧ s.cell c = true) := by
  have h := drawRows_spec s.spriteRow (s.readV x).toNat (s.readV y).toNat n.toNat (by have := n.isLt; omega) (s.fb, false)
  simp only [rowsHit_iff_lights, Bool.false_eq_true, false_or] at h
  exact h

end Sys2Proof.Machine
end

