-- ==== Sys2Proof/Laws/Decode.lean ====
section
/-! SUPPORT. The fields of a word put together by a format are the fields it was put together from (spec/30_encoding.md R71,
R72), and back. -/

namespace Sys2Proof

section formats

variable (op x y low : BitVec 4) (kk : Byte) (nnn : Addr)

@[simp] theorem opField_formatA : opField (formatA op nnn) = op := by
  simp only [opField, formatA, BitVec.extractLsb'_append_eq_ite]; simp
@[simp] theorem nnnField_formatA : nnnField (formatA op nnn) = nnn := by
  simp only [nnnField, formatA, BitVec.extractLsb'_append_eq_ite]; simp
@[simp] theorem opField_formatI : opField (formatI op x kk) = op := by
  simp only [opField, formatI, BitVec.extractLsb'_append_eq_ite]; simp
@[simp] theorem xField_formatI : xField (formatI op x kk) = x := by
  simp only [xField, formatI, BitVec.extractLsb'_append_eq_ite]; simp
@[simp] theorem kkField_formatI : kkField (formatI op x kk) = kk := by
  simp only [kkField, formatI, BitVec.extractLsb'_append_eq_ite]; simp
@[simp] theorem opField_formatR : opField (formatR op x y low) = op := by
  simp only [opField, formatR, BitVec.extractLsb'_append_eq_ite]; simp
@[simp] theorem xField_formatR : xField (formatR op x y low) = x := by
  simp only [xField, formatR, BitVec.extractLsb'_append_eq_ite]; simp
@[simp] theorem yField_formatR : yField (formatR op x y low) = y := by
  simp only [yField, formatR, BitVec.extractLsb'_append_eq_ite]; simp
@[simp] theorem nField_formatR : nField (formatR op x y low) = low := by
  simp only [nField, formatR, BitVec.extractLsb'_append_eq_ite]; simp
@[simp] theorem opField_formatX : opField (formatX op x kk) = op := opField_formatI op x kk
@[simp] theorem xField_formatX : xField (formatX op x kk) = x := xField_formatI op x kk
@[simp] theorem kkField_formatX : kkField (formatX op x kk) = kk := kkField_formatI op x kk

/-- The two bytes of a word put together again are the word (R52). -/
@[simp] theorem wordOf_bytes (w : Word) : wordOf (highByte w) (lowByte w) = w := by
  apply BitVec.eq_of_getLsbD_eq
  intro i hi
  simp only [wordOf, highByte, lowByte, BitVec.getLsbD_append, BitVec.getLsbD_extractLsb']
  split_ifs with h
  · simp [h]
  · simp only [show i - 8 < 8 by omega, decide_true, Bool.true_and]
    congr 1
    omega

/-- A word is its four nibbles: no bit of it is outside the fields (R71). -/
theorem word_eq_nibbles (w : Word) : formatR (opField w) (xField w) (yField w) (nField w) = w := by
  apply BitVec.eq_of_getLsbD_eq
  intro i hi
  simp only [formatR, opField, xField, yField, nField, BitVec.getLsbD_append, BitVec.getLsbD_extractLsb']
  interval_cases i <;> simp

/-- The address field is the three low nibbles (R71). -/
theorem nnnField_eq (w : Word) : nnnField w = xField w ++ yField w ++ nField w := by
  apply BitVec.eq_of_getLsbD_eq
  intro i hi
  simp only [nnnField, xField, yField, nField, BitVec.getLsbD_append, BitVec.getLsbD_extractLsb']
  interval_cases i <;> simp

/-- The immediate byte is the two low nibbles (R71). -/
theorem kkField_eq (w : Word) : kkField w = yField w ++ nField w := by
  apply BitVec.eq_of_getLsbD_eq
  intro i hi
  simp only [kkField, yField, nField, BitVec.getLsbD_append, BitVec.getLsbD_extractLsb']
  interval_cases i <;> simp

/-- The bits of format A, one by one. -/
theorem formatA_bit (i : Nat) : (formatA op nnn).getLsbD i = if i < 12 then nnn.getLsbD i else op.getLsbD (i - 12) := by
  simp only [formatA, BitVec.getLsbD_append]

/-- The bits of format I, one by one. -/
theorem formatI_bit (i : Nat) : (formatI op x kk).getLsbD i =
    if i < 8 then kk.getLsbD i else if i < 12 then x.getLsbD (i - 8) else op.getLsbD (i - 12) := by
  simp only [formatI, BitVec.getLsbD_append]
  split_ifs <;> first | rfl | omega

/-- The bits of formats R and D, one by one. -/
theorem formatR_bit (i : Nat) : (formatR op x y low).getLsbD i =
    if i < 4 then low.getLsbD i else if i < 8 then y.getLsbD (i - 4)
    else if i < 12 then x.getLsbD (i - 8) else op.getLsbD (i - 12) := by
  simp only [formatR, BitVec.getLsbD_append]
  split_ifs <;> first | rfl | omega

/-- The bits of format X, one by one. -/
theorem formatX_bit (i : Nat) : (formatX op x kk).getLsbD i =
    if i < 8 then kk.getLsbD i else if i < 12 then x.getLsbD (i - 8) else op.getLsbD (i - 12) :=
  formatI_bit op x kk i

end formats

/-- What `decode` answers on two bytes or more, by the word they spell (R52, R70). -/
theorem decode_two (hi lo : Byte) (rest : List Byte) :
    decode (hi :: lo :: rest) =
      match decodeWord (wordOf hi lo) with
      | some i => .ok (i, rest)
      | none => .error (.unsupported (wordOf hi lo)) := rfl

/-- For the host's question: the table word decodes as `decodeWord` decodes it. -/
theorem decodeTableWord_eq (nbits w : Nat) : decodeTableWord nbits w = decodeWord (tableWord nbits w) := by
  simp only [decodeTableWord, decode_two, wordOf_bytes]
  cases decodeWord (tableWord nbits w) <;> rfl

namespace Machine

/-- The word laid down is the word fetched, whatever the state. -/
@[simp] theorem State.fetchWord_placeWord (s : State) (w : Word) : (s.placeWord w).fetchWord = w := by
  have h0 : (s.placeWord w).memRead s.pc.toNat = highByte w := by
    have : s.pc.toNat % Config.memSize ≠ (s.pc.toNat + 1) % Config.memSize := by simp only [Config.memSize]; omega
    simp [State.placeWord, State.memRead, Memory.read_poke, this]
  have h1 : (s.placeWord w).memRead (s.pc.toNat + 1) = lowByte w := by
    simp [State.placeWord, State.memRead, Memory.read_poke]
  show wordOf ((s.placeWord w).memRead s.pc.toNat) ((s.placeWord w).memRead (s.pc.toNat + 1)) = w
  rw [h0, h1, wordOf_bytes]

/-- A step on a laid-down word runs the instruction it decodes to. -/
theorem step_withFetchWord (s : State) (nbits w : Nat) (i : Instr) (h : decodeTableWord nbits w = some i) :
    step (s.withFetchWord nbits w) = settle (exec i (s.withFetchWord nbits w)) := by
  rw [decodeTableWord_eq] at h
  have hf : (s.withFetchWord nbits w).fetchWord = tableWord nbits w := s.fetchWord_placeWord _
  have h1 : (s.withFetchWord nbits w).fault = .running := rfl
  have h2 : (s.withFetchWord nbits w).await = none := rfl
  simp [step, h1, h2, hf, h]

end Machine

end Sys2Proof
end

