-- ==== Sys2Proof/Laws/PerInstr.lean ====
section
/-! SUPPORT. For every instruction: its word lies in its row of the opcode map of spec/30_encoding.md R76. -/

namespace Sys2Proof.Laws.InRow

/-- The instruction's row stands in the opcode map and fits the instruction's word: every fixed bit is as the pattern says. -/
def Statement (i : Instr) : Prop := i.row ∈ opTable ∧ i.row.fits (encode i) = true

/-- `fits` bit by bit. -/
theorem fits_of_bits {r : OpRow} {w : Word} (h : ∀ i < 16, (w &&& r.mask).getLsbD i = r.pattern.getLsbD i) :
    r.fits w = true := by
  rw [OpRow.fits, beq_iff_eq]
  exact BitVec.eq_of_getLsbD_eq h

theorem cls : Statement (.cls) := by
  exact ⟨by decide, by decide⟩

theorem ret : Statement (.ret) := by
  exact ⟨by decide, by decide⟩

theorem jp (nnn : Addr) : Statement (.jp nnn) := by
  refine ⟨by simp [opTable, rowSamples, Instr.row], fits_of_bits fun i hi => ?_⟩
  simp only [encode, Instr.row, BitVec.getLsbD_and, formatA_bit]
  interval_cases i <;> simp

theorem call (nnn : Addr) : Statement (.call nnn) := by
  refine ⟨by simp [opTable, rowSamples, Instr.row], fits_of_bits fun i hi => ?_⟩
  simp only [encode, Instr.row, BitVec.getLsbD_and, formatA_bit]
  interval_cases i <;> simp

theorem seImm (x : RegIdx) (kk : Byte) : Statement (.seImm x kk) := by
  refine ⟨by simp [opTable, rowSamples, Instr.row], fits_of_bits fun i hi => ?_⟩
  simp only [encode, Instr.row, BitVec.getLsbD_and, formatI_bit]
  interval_cases i <;> simp

theorem sneImm (x : RegIdx) (kk : Byte) : Statement (.sneImm x kk) := by
  refine ⟨by simp [opTable, rowSamples, Instr.row], fits_of_bits fun i hi => ?_⟩
  simp only [encode, Instr.row, BitVec.getLsbD_and, formatI_bit]
  interval_cases i <;> simp

theorem seReg (x : RegIdx) (y : RegIdx) : Statement (.seReg x y) := by
  refine ⟨by simp [opTable, rowSamples, Instr.row], fits_of_bits fun i hi => ?_⟩
  simp only [encode, Instr.row, BitVec.getLsbD_and, formatR_bit]
  interval_cases i <;> simp

theorem ldImm (x : RegIdx) (kk : Byte) : Statement (.ldImm x kk) := by
  refine ⟨by simp [opTable, rowSamples, Instr.row], fits_of_bits fun i hi => ?_⟩
  simp only [encode, Instr.row, BitVec.getLsbD_and, formatI_bit]
  interval_cases i <;> simp

theorem addImm (x : RegIdx) (kk : Byte) : Statement (.addImm x kk) := by
  refine ⟨by simp [opTable, rowSamples, Instr.row], fits_of_bits fun i hi => ?_⟩
  simp only [encode, Instr.row, BitVec.getLsbD_and, formatI_bit]
  interval_cases i <;> simp

theorem ldReg (x : RegIdx) (y : RegIdx) : Statement (.ldReg x y) := by
  refine ⟨by simp [opTable, rowSamples, Instr.row], fits_of_bits fun i hi => ?_⟩
  simp only [encode, Instr.row, BitVec.getLsbD_and, formatR_bit]
  interval_cases i <;> simp

theorem orReg (x : RegIdx) (y : RegIdx) : Statement (.orReg x y) := by
  refine ⟨by simp [opTable, rowSamples, Instr.row], fits_of_bits fun i hi => ?_⟩
  simp only [encode, Instr.row, BitVec.getLsbD_and, formatR_bit]
  interval_cases i <;> simp

theorem andReg (x : RegIdx) (y : RegIdx) : Statement (.andReg x y) := by
  refine ⟨by simp [opTable, rowSamples, Instr.row], fits_of_bits fun i hi => ?_⟩
  simp only [encode, Instr.row, BitVec.getLsbD_and, formatR_bit]
  interval_cases i <;> simp

theorem xorReg (x : RegIdx) (y : RegIdx) : Statement (.xorReg x y) := by
  refine ⟨by simp [opTable, rowSamples, Instr.row], fits_of_bits fun i hi => ?_⟩
  simp only [encode, Instr.row, BitVec.getLsbD_and, formatR_bit]
  interval_cases i <;> simp

theorem addReg (x : RegIdx) (y : RegIdx) : Statement (.addReg x y) := by
  refine ⟨by simp [opTable, rowSamples, Instr.row], fits_of_bits fun i hi => ?_⟩
  simp only [encode, Instr.row, BitVec.getLsbD_and, formatR_bit]
  interval_cases i <;> simp

theorem subReg (x : RegIdx) (y : RegIdx) : Statement (.subReg x y) := by
  refine ⟨by simp [opTable, rowSamples, Instr.row], fits_of_bits fun i hi => ?_⟩
  simp only [encode, Instr.row, BitVec.getLsbD_and, formatR_bit]
  interval_cases i <;> simp

theorem shr (x : RegIdx) (y : RegIdx) : Statement (.shr x y) := by
  refine ⟨by simp [opTable, rowSamples, Instr.row], fits_of_bits fun i hi => ?_⟩
  simp only [encode, Instr.row, BitVec.getLsbD_and, formatR_bit]
  interval_cases i <;> simp

theorem subnReg (x : RegIdx) (y : RegIdx) : Statement (.subnReg x y) := by
  refine ⟨by simp [opTable, rowSamples, Instr.row], fits_of_bits fun i hi => ?_⟩
  simp only [encode, Instr.row, BitVec.getLsbD_and, formatR_bit]
  interval_cases i <;> simp

theorem shl (x : RegIdx) (y : RegIdx) : Statement (.shl x y) := by
  refine ⟨by simp [opTable, rowSamples, Instr.row], fits_of_bits fun i hi => ?_⟩
  simp only [encode, Instr.row, BitVec.getLsbD_and, formatR_bit]
  interval_cases i <;> simp

theorem sneReg (x : RegIdx) (y : RegIdx) : Statement (.sneReg x y) := by
  refine ⟨by simp [opTable, rowSamples, Instr.row], fits_of_bits fun i hi => ?_⟩
  simp only [encode, Instr.row, BitVec.getLsbD_and, formatR_bit]
  interval_cases i <;> simp

theorem ldI (nnn : Addr) : Statement (.ldI nnn) := by
  refine ⟨by simp [opTable, rowSamples, Instr.row], fits_of_bits fun i hi => ?_⟩
  simp only [encode, Instr.row, BitVec.getLsbD_and, formatA_bit]
  interval_cases i <;> simp

theorem jpV0 (nnn : Addr) : Statement (.jpV0 nnn) := by
  refine ⟨by simp [opTable, rowSamples, Instr.row], fits_of_bits fun i hi => ?_⟩
  simp only [encode, Instr.row, BitVec.getLsbD_and, formatA_bit]
  interval_cases i <;> simp

theorem rnd (x : RegIdx) (kk : Byte) : Statement (.rnd x kk) := by
  refine ⟨by simp [opTable, rowSamples, Instr.row], fits_of_bits fun i hi => ?_⟩
  simp only [encode, Instr.row, BitVec.getLsbD_and, formatI_bit]
  interval_cases i <;> simp

theorem drw (x : RegIdx) (y : RegIdx) (n : Nibble) : Statement (.drw x y n) := by
  refine ⟨by simp [opTable, rowSamples, Instr.row], fits_of_bits fun i hi => ?_⟩
  simp only [encode, Instr.row, BitVec.getLsbD_and, formatR_bit]
  interval_cases i <;> simp

theorem skp (x : RegIdx) : Statement (.skp x) := by
  refine ⟨by simp [opTable, rowSamples, Instr.row], fits_of_bits fun i hi => ?_⟩
  simp only [encode, Instr.row, BitVec.getLsbD_and, formatX_bit]
  interval_cases i <;> simp

theorem sknp (x : RegIdx) : Statement (.sknp x) := by
  refine ⟨by simp [opTable, rowSamples, Instr.row], fits_of_bits fun i hi => ?_⟩
  simp only [encode, Instr.row, BitVec.getLsbD_and, formatX_bit]
  interval_cases i <;> simp

theorem ldVxDt (x : RegIdx) : Statement (.ldVxDt x) := by
  refine ⟨by simp [opTable, rowSamples, Instr.row], fits_of_bits fun i hi => ?_⟩
  simp only [encode, Instr.row, BitVec.getLsbD_and, formatX_bit]
  interval_cases i <;> simp

theorem ldVxK (x : RegIdx) : Statement (.ldVxK x) := by
  refine ⟨by simp [opTable, rowSamples, Instr.row], fits_of_bits fun i hi => ?_⟩
  simp only [encode, Instr.row, BitVec.getLsbD_and, formatX_bit]
  interval_cases i <;> simp

theorem ldDtVx (x : RegIdx) : Statement (.ldDtVx x) := by
  refine ⟨by simp [opTable, rowSamples, Instr.row], fits_of_bits fun i hi => ?_⟩
  simp only [encode, Instr.row, BitVec.getLsbD_and, formatX_bit]
  interval_cases i <;> simp

theorem ldStVx (x : RegIdx) : Statement (.ldStVx x) := by
  refine ⟨by simp [opTable, rowSamples, Instr.row], fits_of_bits fun i hi => ?_⟩
  simp only [encode, Instr.row, BitVec.getLsbD_and, formatX_bit]
  interval_cases i <;> simp

theorem addI (x : RegIdx) : Statement (.addI x) := by
  refine ⟨by simp [opTable, rowSamples, Instr.row], fits_of_bits fun i hi => ?_⟩
  simp only [encode, Instr.row, BitVec.getLsbD_and, formatX_bit]
  interval_cases i <;> simp

theorem ldF (x : RegIdx) : Statement (.ldF x) := by
  refine ⟨by simp [opTable, rowSamples, Instr.row], fits_of_bits fun i hi => ?_⟩
  simp only [encode, Instr.row, BitVec.getLsbD_and, formatX_bit]
  interval_cases i <;> simp

theorem ldB (x : RegIdx) : Statement (.ldB x) := by
  refine ⟨by simp [opTable, rowSamples, Instr.row], fits_of_bits fun i hi => ?_⟩
  simp only [encode, Instr.row, BitVec.getLsbD_and, formatX_bit]
  interval_cases i <;> simp

theorem ldMemVx (x : RegIdx) : Statement (.ldMemVx x) := by
  refine ⟨by simp [opTable, rowSamples, Instr.row], fits_of_bits fun i hi => ?_⟩
  simp only [encode, Instr.row, BitVec.getLsbD_and, formatX_bit]
  interval_cases i <;> simp

theorem ldVxMem (x : RegIdx) : Statement (.ldVxMem x) := by
  refine ⟨by simp [opTable, rowSamples, Instr.row], fits_of_bits fun i hi => ?_⟩
  simp only [encode, Instr.row, BitVec.getLsbD_and, formatX_bit]
  interval_cases i <;> simp

end Sys2Proof.Laws.InRow
end

