-- ==== Sys2Proof/Laws/Step.lean ====
section
/-! SUPPORT. What a step can do, said once, and the two instructions that can fault. -/

namespace Sys2Proof.Machine

/-- A step that answers a next state is a halted one, a waiting one, one that ran a decoded instruction, or one on an
unsupported word (R90). -/
theorem step_cases {s t : State} (h : step s = .next t) :
    (s.fault ≠ .running ∧ t = s) ∨
    (s.fault = .running ∧ ∃ r, s.await = some r ∧ t = (s.keyWaitStep r).endStep) ∨
    (s.fault = .running ∧ s.await = none ∧ ∃ i u, decodeWord s.fetchWord = some i ∧ exec i s = .next u ∧
      ((u.fault = .running ∧ t = u.endStep) ∨ (u.fault ≠ .running ∧ t = u))) ∨
    (s.fault = .running ∧ s.await = none ∧ decodeWord s.fetchWord = none ∧ t = s.unsupportedStep) := by
  unfold step at h
  split at h
  · rename_i hf
    split at h
    · rename_i r hr
      injection h with h
      exact .inr (.inl ⟨hf, r, hr, h.symm⟩)
    · rename_i ha
      split at h
      · rename_i i hi
        refine .inr (.inr (.inl ⟨hf, ha, i, ?_⟩))
        cases he : exec i s with
        | next u =>
          rw [he] at h
          refine ⟨u, hi, rfl, ?_⟩
          by_cases hu : u.fault = .running
          · rw [settle_next_running hu] at h
            injection h with h
            exact .inl ⟨hu, h.symm⟩
          · rw [settle_next_faulted hu] at h
            injection h with h
            exact .inr ⟨hu, h.symm⟩
        | fault f => rw [he] at h; exact absurd h (by simp [settle])
        | refused r => rw [he] at h; exact absurd h (by simp [settle])
      · rename_i hd
        injection h with h
        exact .inr (.inr (.inr ⟨hf, ha, hd, h.symm⟩))
  · rename_i hf
    injection h with h
    exact .inl ⟨hf, h.symm⟩

/-- CALL either pushes and jumps or raises StackOverflow (R112). -/
theorem execCall_cases (nnn : Addr) (s : State) :
    (∃ h : s.sp.val < 16, execCall nnn s = .next { s with
      stack := s.stack.set s.sp.val (s.pc + 2) h, sp := ⟨s.sp.val + 1, by omega⟩, pc := addrWord nnn }) ∨
    (s.sp.val = 16 ∧ execCall nnn s = .next { s with fault := .stackOverflow }) := by
  by_cases h : s.sp.val < 16
  · exact .inl ⟨h, by rw [execCall, s.push_room _ h]⟩
  · have h16 : s.sp.val = 16 := by have := s.sp.isLt; omega
    exact .inr ⟨h16, by rw [execCall, s.push_full _ h16]; rfl⟩

/-- RET either pops into PC or raises StackUnderflow (R113). -/
theorem execRet_cases (s : State) :
    (∃ h : 0 < s.sp.val, execRet s = .next { s with
      sp := ⟨s.sp.val - 1, by have := s.sp.isLt; omega⟩,
      pc := s.stack[s.sp.val - 1]'(by have := s.sp.isLt; omega) }) ∨
    (s.sp.val = 0 ∧ execRet s = .next { s with fault := .stackUnderflow }) := by
  by_cases h : 0 < s.sp.val
  · exact .inl ⟨h, by rw [execRet, s.pop_some h]⟩
  · have h0 : s.sp.val = 0 := by omega
    exact .inr ⟨h0, by rw [execRet, s.pop_empty h0]; rfl⟩

end Sys2Proof.Machine
end

