-- ==== Sys2Proof/Tests/Slice0.lean ====
section
/-! SUPPORT. The model's own tests. Every expected value is worked out in spec/95_test_vectors.md (its vectors are named V<n> and
S<n> below) or by hand from the rule named; then one witness for the hypotheses of every obligation that has any. -/

namespace Sys2Proof.Tests

open Sys2Proof.Machine

/-! ## Helpers -/

/-- The reset state with some V registers set. -/
def withV (l : List (RegIdx × Byte)) : State := l.foldl (fun s p => s.writeV p.1 p.2) State.reset

/-- A state with some pixels on. -/
def lit (s : State) (cells : List Nat) : State := { s with fb := cells.foldl (fun f c => f ||| BitVec.twoPow 2048 c) s.fb }

/-- The cells that are on, among the first `n`. -/
def onCells (s : State) (n : Nat) : List Nat := (List.range n).filter s.cell

/-- A state whose next word is `w`, at its PC. -/
def at' (s : State) (w : Word) : State := s.placeWord w

/-- What a test reads of the next state of one step, `none` where the step answers none. -/
def see {α : Type} (s : State) (f : State → α) : Option α :=
  match step s with
  | .next t => some (f t)
  | .fault _ => none
  | .refused _ => none

/-- The same of one instruction's meaning. -/
def seeExec {α : Type} (i : Instr) (s : State) (f : State → α) : Option α :=
  match exec i s with
  | .next t => some (f t)
  | .fault _ => none
  | .refused _ => none

theorem exists_step {s : State} {p : State → Bool} (h : see s p = some true) : ∃ t, step s = .next t ∧ p t = true := by
  unfold see at h
  split at h
  · rename_i t e
    exact ⟨t, e, by simpa using h⟩
  · simp at h
  · simp at h

theorem exists_exec {i : Instr} {s : State} {p : State → Bool} (h : seeExec i s p = some true) :
    ∃ t, exec i s = .next t ∧ p t = true := by
  unfold seeExec at h
  split at h
  · rename_i t e
    exact ⟨t, e, by simpa using h⟩
  · simp at h
  · simp at h

/-! ## Well-formedness and decoding -/

/-- Words that are nearly instructions are ill-formed (R79; V32, V63, V100, V101). -/
theorem test_ill_formed_words : [0x0000#16, 0x00E1#16, 0x01E0#16, 0x5341#16, 0x8128#16, 0x9341#16, 0xE19F#16, 0xF106#16].all
    (fun w => !wellFormedWord w && (decodeWord w).isNone) = true := by decide

/-- `8126` and `812E` are no assembler's SHR V1 and SHL V1, though the hardware executes them (R82). -/
theorem test_assembler_form : (Instr.shr 1 2).assemblerForm = false ∧ (Instr.shl 1 2).assemblerForm = false ∧
    (Instr.shr 1 0).assemblerForm = true := by decide

/-- An image of 3585 bytes is refused, one of 3584 is not (R247, S7). -/
theorem test_image_length : wellFormedImage (List.replicate 3585 0) = false ∧
    wellFormedImage (List.replicate 3584 0) = true := by
  unfold wellFormedImage
  rw [List.length_replicate, List.length_replicate]
  decide

/-- Decoding rejects by name: too few bytes (R70), an unsupported word (R75). -/
theorem test_decode_rejects : decode [] = .error .truncated ∧ decode [0x12] = .error .truncated ∧
    decode [0x00, 0xE1, 0xFF] = .error (.unsupported 0x00E1#16) := by decide

/-- Control transfer and skips, each word from its pattern in R76. -/
theorem test_decode_control : decodeWord 0x00EE#16 = some .ret ∧ decodeWord 0x1ABC#16 = some (.jp 0xABC) ∧
    decodeWord 0x220A#16 = some (.call 0x20A) ∧ decodeWord 0xBFFE#16 = some (.jpV0 0xFFE) ∧
    decodeWord 0x3107#16 = some (.seImm 1 0x07) ∧ decodeWord 0x4207#16 = some (.sneImm 2 0x07) ∧
    decodeWord 0x5340#16 = some (.seReg 3 4) ∧ decodeWord 0x9340#16 = some (.sneReg 3 4) := by decide

/-- Load, arithmetic, logic and random. -/
theorem test_decode_alu : decodeWord 0x6A2B#16 = some (.ldImm 0xA 0x2B) ∧ decodeWord 0x7102#16 = some (.addImm 1 0x02) ∧
    decodeWord 0x8120#16 = some (.ldReg 1 2) ∧ decodeWord 0x8121#16 = some (.orReg 1 2) ∧
    decodeWord 0x8122#16 = some (.andReg 1 2) ∧ decodeWord 0x8123#16 = some (.xorReg 1 2) ∧
    decodeWord 0x8124#16 = some (.addReg 1 2) ∧ decodeWord 0x8125#16 = some (.subReg 1 2) ∧
    decodeWord 0x8126#16 = some (.shr 1 2) ∧ decodeWord 0x8127#16 = some (.subnReg 1 2) ∧
    decodeWord 0x812E#16 = some (.shl 1 2) ∧ decodeWord 0xC30F#16 = some (.rnd 3 0x0F) := by decide

/-- The address register and memory. -/
theorem test_decode_index : decodeWord 0xA300#16 = some (.ldI 0x300) ∧ decodeWord 0xF21E#16 = some (.addI 2) ∧
    decodeWord 0xF029#16 = some (.ldF 0) ∧ decodeWord 0xF333#16 = some (.ldB 3) ∧
    decodeWord 0xF255#16 = some (.ldMemVx 2) ∧ decodeWord 0xF265#16 = some (.ldVxMem 2) := by decide

/-- Display. -/
theorem test_decode_display : decodeWord 0x00E0#16 = some .cls ∧ decodeWord 0xD125#16 = some (.drw 1 2 5) := by decide

/-- Timers and keys. -/
theorem test_decode_timers_keys : decodeWord 0xF107#16 = some (.ldVxDt 1) ∧ decodeWord 0xF015#16 = some (.ldDtVx 0) ∧
    decodeWord 0xF418#16 = some (.ldStVx 4) ∧ decodeWord 0xE29E#16 = some (.skp 2) ∧
    decodeWord 0xE3A1#16 = some (.sknp 3) ∧ decodeWord 0xF20A#16 = some (.ldVxK 2) := by decide

/-- The encoder writes the same words, high byte first in memory (R52; the images of P2 and P3). -/
theorem test_encode : encodeBytes (.call 0x20A) = [0x22, 0x0A] ∧ encodeBytes (.drw 0 1 2) = [0xD0, 0x12] ∧
    encodeBytes (.ldB 3) = [0xF3, 0x33] ∧ encodeBytes (.subnReg 1 2) = [0x81, 0x27] ∧
    encodeBytes (.skp 2) = [0xE2, 0x9E] := by decide

/-! ## The step -/

/-- V97: with nothing loaded the word 0000 is reported and passed over. -/
theorem test_step_nothing_loaded : State.reset.report = some (0x0000#16, 0x0200#16) ∧
    see State.reset (fun t => (t.pc, t.fault)) = some (0x202#16, .running) := by decide

/-- V98: FFFF is unsupported, and the tick still happens. -/
theorem test_step_unsupported_ticks :
    see (at' { State.reset with dt := 2 } 0xFFFF) (fun t => (t.pc, t.dt)) = some (0x202#16, 1) := by decide

/-- V99: the low byte of a word fetched at 0xFFF comes from 0x000. -/
theorem test_step_fetch_wraps :
    see (({ State.reset with pc := 0xFFF }.memWrite 0xFFF 0x60).memWrite 0x000 0x34) (fun t => (t.readV 0, t.pc)) =
      some (0x34, 0x1001#16) := by decide

/-- S8: DT and ST count down by one each step, floor 0. -/
theorem test_step_timers : see (at' { State.reset with dt := 3, st := 1 } 0x6000) (fun t => (t.dt, t.st)) = some (2, 0) ∧
    see (at' State.reset 0x6000) (fun t => (t.dt, t.st)) = some (0, 0) := by decide

/-- V11: a halted core changes nothing and reports nothing. -/
theorem test_step_halted : see { State.reset with fault := .stackUnderflow, dt := 5 } (fun t => (t.pc, t.dt)) =
    some (0x200#16, 5) ∧ { State.reset with fault := .stackUnderflow, dt := 5 }.report = none := by decide

/-! ## Control transfer -/

/-- V1. -/
theorem test_jp : see (at' State.reset 0x1ABC) State.pc = some 0x0ABC#16 := by decide

/-- V5: the return address is the word after the CALL. -/
theorem test_call : see (at' { State.reset with pc := 0x204 } 0x220A) (fun t => (t.pc, t.sp, t.stack[0])) =
    some (0x20A#16, 1, 0x0206#16) := by decide

/-- V7: a CALL on a full stack faults, with no tick. -/
theorem test_call_full : see (at' { State.reset with sp := 16, dt := 5 } 0x2300) (fun t => (t.fault, t.pc, t.sp, t.dt)) =
    some (.stackOverflow, 0x200#16, 16, 5) := by decide

/-- V15: RET takes the popped word as it is, and the slot keeps it. -/
theorem test_ret : see (at' { State.reset with sp := 1, stack := State.reset.stack.set 0 0x1001 } 0x00EE)
    (fun t => (t.pc, t.sp, t.stack[0])) = some (0x1001#16, 0, 0x1001#16) := by decide

/-- V10: a RET on an empty stack faults, with no tick and no key bookkeeping. -/
theorem test_ret_empty : see (at' { State.reset with dt := 5, keys := 8 } 0x00EE) (fun t => (t.fault, t.pc, t.dt, t.kprev)) =
    some (.stackUnderflow, 0x200#16, 5, 0) := by decide

/-- V12: the sum wraps at 4096. -/
theorem test_jpV0_wraps : see (at' (withV [(0, 0xFF)]) 0xBFFF) State.pc = some 0x0FE#16 := by decide

/-- V14: always V0, though the top nibble of nnn is 3. -/
theorem test_jpV0_uses_v0 : see (at' (withV [(0, 0x01), (3, 0x80)]) 0xB300) State.pc = some 0x301#16 := by decide

/-- V20, V21. -/
theorem test_seImm : see (at' (withV [(1, 0x00)]) 0x3100) State.pc = some 0x204#16 ∧
    see (at' (withV [(1, 0x03)]) 0x3100) State.pc = some 0x202#16 := by decide

/-- V31: PC + 4 wraps at 65536. -/
theorem test_seImm_pc_wraps : see (at' { State.reset with pc := 0xFFFE } 0x3000) State.pc = some 0x0002#16 := by decide

/-- V22, V23. -/
theorem test_sneImm : see (at' (withV [(2, 7)]) 0x4207) State.pc = some 0x202#16 ∧
    see (at' (withV [(2, 7)]) 0x4208) State.pc = some 0x204#16 := by decide

/-- V24, V25. -/
theorem test_seReg : see (at' (withV [(3, 9), (4, 9)]) 0x5340) State.pc = some 0x204#16 ∧
    see (at' (withV [(3, 9), (4, 8)]) 0x5340) State.pc = some 0x202#16 := by decide

/-- V26, V27. -/
theorem test_sneReg : see (at' (withV [(3, 9), (4, 8)]) 0x9340) State.pc = some 0x204#16 ∧
    see (at' (withV [(3, 9), (4, 9)]) 0x9340) State.pc = some 0x202#16 := by decide

/-! ## Load, arithmetic, logic, random -/

/-- V35. -/
theorem test_ldImm : see (at' State.reset 0x6A2B) (fun t => (t.readV 0xA, t.pc)) = some (0x2B, 0x202#16) := by decide

/-- V37: a wrap sets no flag. -/
theorem test_addImm : see (at' (withV [(1, 0xFF)]) 0x7102) (fun t => (t.readV 1, t.readV 0xF)) = some (0x01, 0) := by decide

/-- V39. -/
theorem test_ldReg : see (at' (withV [(2, 0x5A)]) 0x8120) (fun t => (t.readV 1, t.readV 2)) = some (0x5A, 0x5A) := by decide

/-- V40: VF is untouched. -/
theorem test_orReg : see (at' (withV [(1, 0x0F), (2, 0xF0), (15, 1)]) 0x8121) (fun t => (t.readV 1, t.readV 0xF)) =
    some (0xFF, 1) := by decide

/-- V41. -/
theorem test_andReg : see (at' (withV [(1, 0x3C), (2, 0x0F), (15, 1)]) 0x8122) (fun t => (t.readV 1, t.readV 0xF)) =
    some (0x0C, 1) := by decide

/-- V42. -/
theorem test_xorReg : see (at' (withV [(1, 0xFF), (2, 0x0F), (15, 1)]) 0x8123) (fun t => (t.readV 1, t.readV 0xF)) =
    some (0xF0, 1) := by decide

/-- S5. -/
theorem test_addReg : see (at' (withV [(1, 250), (2, 10)]) 0x8124) (fun t => (t.readV 1, t.readV 0xF)) = some (4, 1) ∧
    see (at' (withV [(1, 10), (2, 10)]) 0x8124) (fun t => (t.readV 1, t.readV 0xF)) = some (20, 0) := by decide

/-- V46, V46c: VF as a source is the old VF, and as a destination takes the flag. -/
theorem test_addReg_vf : see (at' (withV [(1, 10), (15, 250)]) 0x81F4) (fun t => (t.readV 1, t.readV 0xF)) = some (4, 1) ∧
    see (at' (withV [(15, 3), (1, 4)]) 0x8F14) (fun t => t.readV 0xF) = some 0 := by decide

/-- V52, V53. -/
theorem test_subReg : see (at' (withV [(1, 5), (2, 9)]) 0x8125) (fun t => (t.readV 1, t.readV 0xF)) = some (252, 0) ∧
    see (at' (withV [(1, 7), (2, 7)]) 0x8125) (fun t => (t.readV 1, t.readV 0xF)) = some (0, 1) := by decide

/-- V54: the flag wins over the difference. -/
theorem test_subReg_vf : see (at' (withV [(15, 5), (1, 9)]) 0x8F15) (fun t => t.readV 0xF) = some 0 := by decide

/-- V48: y is ignored. -/
theorem test_shr : see (at' (withV [(1, 4), (2, 0xFF)]) 0x8126) (fun t => (t.readV 1, t.readV 2, t.readV 0xF)) =
    some (2, 0xFF, 0) := by decide

/-- V49, V50. -/
theorem test_shr_vf : see (at' (withV [(15, 3)]) 0x8F06) (fun t => t.readV 0xF) = some 1 ∧
    see (at' (withV [(15, 2)]) 0x8F06) (fun t => t.readV 0xF) = some 0 := by decide

/-- S3. -/
theorem test_subnReg : see (at' (withV [(1, 5), (2, 9)]) 0x8127) (fun t => (t.readV 1, t.readV 0xF)) = some (4, 1) ∧
    see (at' (withV [(1, 9), (2, 5)]) 0x8127) (fun t => (t.readV 1, t.readV 0xF)) = some (252, 0) := by decide

/-- V57, V58. -/
theorem test_shl : see (at' (withV [(1, 0x81)]) 0x810E) (fun t => (t.readV 1, t.readV 0xF)) = some (0x02, 1) ∧
    see (at' (withV [(1, 0x40)]) 0x810E) (fun t => (t.readV 1, t.readV 0xF)) = some (0x80, 0) := by decide

/-- V60: with A7 on `rnd_in`, whatever the free value of a run is. -/
theorem test_rnd_on_a_given_byte : (State.reset.rndWith 0xA7 3 0x0F).readV 3 = 0x07 := by decide

/-- R142: `C300` leaves 0 whatever the free byte is (V61), and counts one draw. -/
theorem test_rnd_masked : ∃ t, exec (.rnd 3 0x00) State.reset = .next t ∧ t.readV 3 = 0 ∧ t.draws = 1 :=
  ⟨_, rfl, by simp [State.rndWith, State.readV, State.resultOnly, State.advance, State.writeV], rfl⟩

/-! ## The address register and memory -/

/-- V64. -/
theorem test_ldI : see (at' State.reset 0xA300) (fun t => (t.ireg, t.pc)) = some (0x300#16, 0x202#16) := by decide

/-- V65: I wraps at 4096 and no flag is set. -/
theorem test_addI : see (at' { withV [(2, 5)] with ireg := 0xFFE } 0xF21E) (fun t => (t.ireg, t.readV 0xF)) =
    some (0x003#16, 0) := by decide

/-- V66, V67: the whole byte, not its low nibble. -/
theorem test_ldF : see (at' (withV [(0, 0x0A)]) 0xF029) State.ireg = some 0x082#16 ∧
    see (at' (withV [(0, 0xFF)]) 0xF029) State.ireg = some 0x54B#16 := by decide

/-- S4. -/
theorem test_ldB : see (at' { withV [(3, 157)] with ireg := 0x300 } 0xF333)
    (fun t => (t.memRead 0x300, t.memRead 0x301, t.memRead 0x302, t.ireg)) = some (1, 5, 7, 0x300#16) := by decide

/-- V77: the bytes for the glyph table are dropped, the third digit is stored. -/
theorem test_ldB_glyph_border : see (at' { withV [(0, 123)] with ireg := 0x09E } 0xF033)
    (fun t => (t.memRead 0x09E, t.memRead 0x09F, t.memRead 0x0A0)) = some (0x80, 0x80, 3) := by decide

/-- V68: V3 is not stored. -/
theorem test_ldMemVx : see (at' { withV [(0, 0x11), (1, 0x22), (2, 0x33), (3, 0x44)] with ireg := 0x300 } 0xF255)
    (fun t => (t.memRead 0x300, t.memRead 0x302, t.memRead 0x303, t.ireg)) = some (0x11, 0x33, 0, 0x300#16) := by decide

/-- V69: the addresses wrap at 4096. -/
theorem test_ldMemVx_wraps : see (at' { withV [(0, 0xAA), (1, 0xBB), (2, 0xCC)] with ireg := 0xFFF } 0xF255)
    (fun t => (t.memRead 0xFFF, t.memRead 0, t.memRead 1)) = some (0xAA, 0xBB, 0xCC) := by decide

/-- V71: V3 is not loaded. -/
theorem test_ldVxMem : see (at' ({ withV [(3, 0xEE)] with ireg := 0x300 }.storeBytes 0x300 [1, 5, 7, 9]) 0xF265)
    (fun t => (t.readV 0, t.readV 2, t.readV 3, t.ireg)) = some (1, 7, 0xEE, 0x300#16) := by decide

/-- V72: a glyph read as data. -/
theorem test_ldVxMem_glyph : see (at' { State.reset with ireg := 0x050 } 0xF465) (fun t => (t.readV 0, t.readV 1, t.readV 4)) =
    some (0xF0, 0x90, 0xF0) := by decide

/-! ## The display -/

/-- V80: every cell is 0 after CLS, VF and the other registers stay. -/
theorem test_cls : see (at' { State.reset with fb := BitVec.allOnes 2048 } 0x00E0) (fun t => (t.fb == 0, t.pc)) =
    some (true, 0x202#16) := by decide +kernel

/-- V85, the worked example of R174: rows and columns wrap on their own; V89b: one collision is enough. -/
theorem test_drw_wraps_and_collides :
    see (at' ({ withV [(0, 62), (1, 31)] with ireg := 0x300 }.storeBytes 0x300 [0xC3, 0x80]) 0xD012)
      (fun t => (onCells t 2048, t.readV 0xF, t.redraw)) = some ([62, 1988, 1989, 2046, 2047], 0, true) ∧
    see (at' (lit ({ State.reset with ireg := 0x300 }.memWrite 0x300 0x81) [0]) 0xD011)
      (fun t => (onCells t 2048, t.readV 0xF)) = some ([7], 1) := by decide +kernel

/-- V82, then V81 (log 15): a one-pixel sprite drawn twice over a lit cell gives VF = 1, then VF = 0. -/
theorem test_drw_twice_over_a_lit_cell :
    (seeExec (.drw 0 1 1) (lit ({ State.reset with ireg := 0x300 }.memWrite 0x300 0x80) [0])
      (fun t => (t.readV 0xF, seeExec (.drw 0 1 1) t (fun u => (u.readV 0xF, u.cell 0))))) =
    some (1, some (0, true)) := by decide +kernel

/-! ## Timers and keys -/

/-- V91. -/
theorem test_ldVxDt : see (at' { State.reset with dt := 2 } 0xF107) (fun t => (t.readV 1, t.dt)) = some (2, 1) := by decide

/-- V90. -/
theorem test_ldDtVx : see (at' (withV [(0, 3)]) 0xF015) (fun t => (t.dt, t.st)) = some (2, 0) := by decide

/-- V92. -/
theorem test_ldStVx : see (at' (withV [(4, 0x10)]) 0xF418) (fun t => (t.dt, t.st)) = some (0, 0x0F) := by decide

/-- V93, V93b. -/
theorem test_skp : see (at' { withV [(2, 7)] with keys := 0x80 } 0xE29E) State.pc = some 0x204#16 ∧
    see (at' (withV [(2, 7)]) 0xE29E) State.pc = some 0x202#16 := by decide

/-- V94: the key is 0x17 mod 16. -/
theorem test_skp_low_nibble : see (at' { withV [(2, 0x17)] with keys := 0x80 } 0xE29E) State.pc = some 0x204#16 := by decide

/-- V93, V93b. -/
theorem test_sknp : see (at' { withV [(2, 7)] with keys := 0x80 } 0xE2A1) State.pc = some 0x202#16 ∧
    see (at' (withV [(2, 7)]) 0xE2A1) State.pc = some 0x204#16 := by decide

/-- V95: the wait starts; PC and V2 stay, the tick happens. -/
theorem test_ldVxK : see (at' { State.reset with dt := 1, pc := 0x206 } 0xF20A)
    (fun t => (t.await, t.pc, t.dt, t.awaitingKey)) = some (some 2, 0x206#16, 0, true) := by decide

/-- V95c: of two edges the lowest key is taken. -/
theorem test_wait_takes_the_lowest : see { State.reset with await := some 2, pc := 0x206, keys := 0x280 }
    (fun t => (t.readV 2, t.pc, t.await, t.kprev)) = some (7, 0x208#16, none, 0x280) := by decide

/-- V96: a held key is no edge. -/
theorem test_wait_held_key : see { State.reset with await := some 2, keys := 0x10, kprev := 0x10 }
    (fun t => (t.await, t.pc)) = some (some 2, 0x200#16) := by decide

/-! ## The host's operations -/

/-- S7 on a short image: the bytes stand from 0x200 on, high byte of the first word first, and Load is closed. -/
theorem test_load : (match System.start.load [0x60, 0x07] with
    | .next z => (z.core.fetchWord == 0x6007#16) && (z.core.memRead 0x1FF == 0) && !z.loadOpen
    | .fault _ => false
    | .refused _ => false) = true := by decide

/-- R248, R249: a key written down and up again. -/
theorem test_keys_write : ((State.reset.keysWrite 7 true).keysWrite 9 true).keys = 0x280 ∧
    (((State.reset.keysWrite 7 true).keysWrite 9 true).keysWrite 7 false).keys = 0x200 := by decide

/-- R240: Reset clears the program, the registers, the stack and the fault. -/
theorem test_reset : { (withV [(3, 9)]).memWrite 0x200 0x12 with sp := 3, dt := 7, fault := .stackOverflow }.resetOf = State.reset := by
  decide +kernel

/-! ## Witnesses: a concrete state and operands that meet the hypotheses of each obligation, clause by clause -/

theorem witness_EncodeOfDecodeIsTheWord : decodeWord 0x00E0#16 = some .cls ∧ decodeWord 0x8FFE#16 = some (.shl 0xF 0xF) ∧
    decodeWord 0xFF65#16 = some (.ldVxMem 0xF) := by decide

theorem witness_DecodeFollowsTheOpcodeMap : (Instr.row .cls ∈ opTable ∧ (Instr.row .cls).fits 0x00E0#16 = true) ∧
    ((Instr.ldVxMem 0).row ∈ opTable ∧ (Instr.ldVxMem 0).row.fits 0xFF65#16 = true) ∧
    decodeWord 0xFF65#16 = some (.ldVxMem 0xF) := by decide

/-- An instruction that goes on, and one that faults. -/
theorem witness_StepRunsTheDecodedInstruction :
    (at' State.reset 0x6A2B).fault = .running ∧ (at' State.reset 0x6A2B).await = none ∧
    decode [(at' State.reset 0x6A2B).memRead 0x200, (at' State.reset 0x6A2B).memRead (0x200 + 1)] =
      .ok (.ldImm 0xA 0x2B, []) ∧ (at' State.reset 0x6A2B).pc.toNat = 0x200 ∧
    decode [(at' State.reset 0x00EE).memRead 0x200, (at' State.reset 0x00EE).memRead (0x200 + 1)] = .ok (.ret, []) ∧
    State.reset.sp = 0 := by decide

theorem witness_HaltedStepChangesNothing : ({ State.reset with fault := .stackUnderflow } : State).fault ≠ .running ∧
    ({ State.reset with fault := .stackOverflow } : State).fault ≠ .running := by decide

/-- RET with SP = 0, CALL with SP = 16, and steps that lead from FAULT = 0 to another value. -/
theorem witness_StepFaultsOnlyAtAnEmptyRetOrAFullCall :
    ((at' State.reset 0x00EE).fault = .running ∧ (at' State.reset 0x00EE).await = none ∧
      decodeWord (at' State.reset 0x00EE).fetchWord = some .ret ∧ (at' State.reset 0x00EE).sp.val = 0) ∧
    ((at' { State.reset with sp := 16 } 0x2300).await = none ∧
      decodeWord (at' { State.reset with sp := 16 } 0x2300).fetchWord = some (.call 0x300) ∧
      (at' { State.reset with sp := 16 } 0x2300).sp.val = 16) ∧
    (∃ t, step (at' State.reset 0x00EE) = .next t ∧ (t.fault != .running) = true) ∧
    (∃ t, step (at' { State.reset with sp := 16 } 0x2300) = .next t ∧ (t.fault != .running) = true) :=
  ⟨by decide, by decide, exists_step (p := fun t => t.fault != .running) (by decide),
    exists_step (p := fun t => t.fault != .running) (by decide)⟩

/-- LD DT, Vx with V[x] = 0 and 1; LD ST, Vx; another instruction with both timers at 1; a waiting core. -/
theorem witness_EveryLiveStepEndsWithTickAndKeyLatch :
    (∃ t, step (at' State.reset 0xF015) = .next t ∧ (t.fault == .running) = true) ∧
    (∃ t, step (at' (withV [(0, 1)]) 0xF015) = .next t ∧ (t.fault == .running) = true) ∧
    (∃ t, step (at' (withV [(0, 1)]) 0xF018) = .next t ∧ (t.fault == .running) = true) ∧
    (∃ t, step (at' { State.reset with dt := 1, st := 1 } 0x6000) = .next t ∧ (t.fault == .running) = true) ∧
    (∃ t, step { State.reset with await := some 2 } = .next t ∧ (t.fault == .running) = true) ∧
    decodeWord (at' (withV [(0, 1)]) 0xF015).fetchWord = some (.ldDtVx 0) ∧
    decodeWord (at' (withV [(0, 1)]) 0xF018).fetchWord = some (.ldStVx 0) ∧
    decodeWord (at' { State.reset with dt := 1, st := 1 } 0x6000).fetchWord = some (.ldImm 0 0) :=
  ⟨exists_step (p := fun t => t.fault == .running) (by decide), exists_step (p := fun t => t.fault == .running) (by decide),
    exists_step (p := fun t => t.fault == .running) (by decide), exists_step (p := fun t => t.fault == .running) (by decide),
    exists_step (p := fun t => t.fault == .running) (by decide), by decide, by decide, by decide⟩

theorem witness_UnsupportedWordsAreNopsWithAReport :
    State.reset.fault = .running ∧ State.reset.await = none ∧ decodeWord State.reset.fetchWord = none ∧
    decodeWord (at' { State.reset with pc := 0xFFFF, dt := 1 } 0xFFFF).fetchWord = none := by decide

theorem witness_ReportIsRaisedOnlyByAnUnsupportedWord : State.reset.report = some (0x0000#16, 0x0200#16) ∧
    (at' { State.reset with pc := 0xFFFF } 0xFFFF).report = some (0xFFFF#16, 0xFFFF#16) := by decide

/-- The lowest and the highest key, a pressed pair, and no edge. -/
theorem witness_WaitingStepTakesTheLowestPressEdge :
    ({ State.reset with await := some 2, keys := 0x0001 } : State).fault = .running ∧
    PressEdge { State.reset with await := some 2, keys := 0x0001 } (0x0#4 : Nibble).toNat ∧
    (PressEdge { State.reset with await := some 0xF, keys := 0x8000 } (0xF#4 : Nibble).toNat ∧
      ∀ j < (0xF#4 : Nibble).toNat, ¬ PressEdge { State.reset with await := some 0xF, keys := 0x8000 } j) ∧
    (PressEdge { State.reset with await := some 2, keys := 0x0281, kprev := 0x0001 } (0x7#4 : Nibble).toNat ∧
      ∀ j < (0x7#4 : Nibble).toNat, ¬ PressEdge { State.reset with await := some 2, keys := 0x0281, kprev := 0x0001 } j) ∧
    (∀ k < 16, ¬ PressEdge { State.reset with await := some 2, keys := 0x0010, kprev := 0xFFFF } k) := by decide

/-- From none by LD Vx, K; from some with and without an edge; halted. -/
theorem witness_AwaitIsSetByLdVxKAndClearedByAPressEdge :
    (∃ t, step (at' State.reset 0xF20A) = .next t ∧ (t.await == some 2) = true) ∧
    (∃ t, step { State.reset with await := some 2, keys := 0x8000 } = .next t ∧ t.await.isNone = true) ∧
    (∃ k < 16, PressEdge { State.reset with await := some 2, keys := 0x8000 } k) ∧
    (∃ t, step { State.reset with await := some 2 } = .next t ∧ t.await.isSome = true) ∧
    (∀ k < 16, ¬ PressEdge { State.reset with await := some 2 } k) ∧
    (∃ t, step { State.reset with fault := .stackOverflow } = .next t ∧ t.await.isNone = true) :=
  ⟨exists_step (p := fun t => t.await == some 2) (by decide), exists_step (p := fun t => t.await.isNone) (by decide),
    by decide, exists_step (p := fun t => t.await.isSome) (by decide), by decide,
    exists_step (p := fun t => t.await.isNone) (by decide)⟩

/-- DRW, CLS, and neither. -/
theorem witness_RedrawIsRaisedByDrawingAndClearedByTheHostOnly :
    (∃ t, step (at' State.reset 0xD010) = .next t ∧ t.redraw = true) ∧
    decodeWord (at' State.reset 0xD010).fetchWord = some (.drw 0 1 0) ∧
    (∃ t, step (at' State.reset 0x00E0) = .next t ∧ (t.pc == 0x202) = true) ∧
    decodeWord (at' State.reset 0x00E0).fetchWord = some .cls ∧
    (∃ t, step (at' State.reset 0x6000) = .next t ∧ (t.pc == 0x202) = true) ∧
    decodeWord (at' State.reset 0x6000).fetchWord = some (.ldImm 0 0) :=
  ⟨exists_step (p := State.redraw) (by decide), by decide, exists_step (p := fun t => t.pc == 0x202) (by decide), by decide,
    exists_step (p := fun t => t.pc == 0x202) (by decide), by decide⟩

/-- The two ends of the glyph table, and a step that executes no store. -/
theorem witness_OnlyTheStoresWriteMemoryAndNeverTheGlyphTable : InGlyphTable 0x050 ∧ InGlyphTable 0x09F ∧
    (∃ t, step (at' { withV [(0, 123)] with ireg := 0x09E } 0xF033) = .next t ∧ (t.memRead 0x0A0 == 3) = true) ∧
    (∃ t, step (at' State.reset 0x6000) = .next t ∧ (t.pc == 0x202) = true) ∧
    (∀ x, decodeWord (at' State.reset 0x6000).fetchWord ≠ some (.ldB x) ∧
      decodeWord (at' State.reset 0x6000).fetchWord ≠ some (.ldMemVx x)) :=
  ⟨by decide, by decide, exists_step (p := fun t => t.memRead 0x0A0 == 3) (by decide),
    exists_step (p := fun t => t.pc == 0x202) (by decide), by decide⟩

/-- A jump, CALL with room and full, RET empty and with the last slot, a taken skip, the wait, any other. -/
theorem witness_PcMovesByTwoOrFourOrToATarget :
    (∃ t, exec (.jp 0xFFF) State.reset = .next t ∧ (t.pc == 0xFFF) = true) ∧
    (∃ t, exec (.call 0x300) { State.reset with sp := 15 } = .next t ∧ (t.pc == 0x300) = true) ∧
    (∃ t, exec (.call 0x300) { State.reset with sp := 16 } = .next t ∧ (t.pc == 0x200) = true) ∧
    (∃ t, exec .ret State.reset = .next t ∧ (t.pc == 0x200) = true) ∧
    (∃ t, exec .ret { State.reset with sp := 16, stack := State.reset.stack.set 15 0x345 } = .next t ∧ (t.pc == 0x345) = true) ∧
    (∃ t, exec (.jpV0 0xFFF) (withV [(0, 0xFF)]) = .next t ∧ (t.pc == 0x0FE) = true) ∧
    (∃ t, exec (.seImm 0 0) { State.reset with pc := 0xFFFF } = .next t ∧ (t.pc == 3) = true) ∧
    (∃ t, exec (.ldVxK 0) State.reset = .next t ∧ (t.pc == 0x200) = true) ∧
    (∃ t, exec (.ldImm 0 0) { State.reset with pc := 0xFFFF } = .next t ∧ (t.pc == 1) = true) :=
  ⟨exists_exec (p := fun t => t.pc == 0xFFF) (by decide), exists_exec (p := fun t => t.pc == 0x300) (by decide),
    exists_exec (p := fun t => t.pc == 0x200) (by decide), exists_exec (p := fun t => t.pc == 0x200) (by decide),
    exists_exec (p := fun t => t.pc == 0x345) (by decide), exists_exec (p := fun t => t.pc == 0x0FE) (by decide),
    exists_exec (p := fun t => t.pc == 3) (by decide), exists_exec (p := fun t => t.pc == 0x200) (by decide),
    exists_exec (p := fun t => t.pc == 1) (by decide)⟩

/-- An even PC at the top of its range, and a skip there; a core halted at a RET and one halted at a CALL; a waiting core. -/
theorem witness_PcStaysEvenUnlessItIsSet :
    (∃ t, step (at' { State.reset with pc := 0xFFFE } 0x3000) = .next t ∧ (t.pc == 2) = true) ∧
    ({ State.reset with pc := 0xFFFE } : State).pc.toNat % 2 = 0 ∧
    decodeWord (at' { State.reset with pc := 0xFFFE } 0x3000).fetchWord = some (.seImm 0 0) ∧
    (∃ t, step { at' State.reset 0x00EE with fault := .stackUnderflow } = .next t ∧ (t.pc == 0x200) = true) ∧
    ({ at' State.reset 0x00EE with fault := .stackUnderflow } : State).fault ≠ .running ∧
    (∃ t, step { at' State.reset 0x2301 with fault := .stackOverflow, sp := 16 } = .next t ∧ (t.pc == 0x200) = true) ∧
    ({ at' State.reset 0x2301 with fault := .stackOverflow, sp := 16 } : State).fault ≠ .running ∧
    (∃ t, step { at' State.reset 0xF20A with await := some 2, keys := 1 } = .next t ∧ (t.pc == 0x202) = true) ∧
    ({ at' State.reset 0xF20A with await := some 2, keys := 1 } : State).await ≠ none :=
  ⟨exists_step (p := fun t => t.pc == 2) (by decide), by decide, by decide,
    exists_step (p := fun t => t.pc == 0x200) (by decide), by decide, exists_step (p := fun t => t.pc == 0x200) (by decide),
    by decide, exists_step (p := fun t => t.pc == 0x202) (by decide), by decide⟩

theorem witness_SoundTimerInfluencesNothingElse :
    ∃ t, step (at' { withV [(4, 0x10)] with st := 7 } 0xF418) = .next t ∧ (t.st == 0x0F) = true :=
  exists_step (p := fun t => t.st == 0x0F) (by decide)

/-- RND, and a step that is no RND. -/
theorem witness_OnlyRndConsumesRandomBytes :
    (∃ t, step (at' State.reset 0xC3FF) = .next t ∧ (t.draws == 1) = true) ∧
    decodeWord (at' State.reset 0xC3FF).fetchWord = some (.rnd 3 0xFF) ∧
    (∃ t, step (at' State.reset 0x6000) = .next t ∧ (t.draws == 0) = true) ∧
    decodeWord (at' State.reset 0x6000).fetchWord = some (.ldImm 0 0) :=
  ⟨exists_step (p := fun t => t.draws == 1) (by decide), by decide, exists_step (p := fun t => t.draws == 0) (by decide), by decide⟩

theorem witness_JumpToItselfChangesNothingButTimers :
    (at' State.reset 0x1200).fault = .running ∧ (at' State.reset 0x1200).await = none ∧
    (at' State.reset 0x1200).fetchWord = 0x1#4 ++ 0x200#12 ∧ (at' State.reset 0x1200).pc.toNat = (0x200#12 : Addr).toNat := by
  decide

/-- A core that waits at an `F20A`, with an edge on key 7. -/
def waiting : State := { at' State.reset 0xF20A with await := some 2, keys := 0x80 }

/-- A core halted at a RET. -/
def halted : State := { at' State.reset 0x00EE with fault := .stackUnderflow }

/-- A core halted at a CALL. -/
def full : State := { at' State.reset 0x2300 with fault := .stackOverflow, sp := 16 }

theorem waiting_inv : Inv Config.defaultGlyph waiting where
  canonical := by decide
  glyphs := by decide
  iLow := by decide
  waiting := by
    intro r h
    have : r = 2 := by simpa [waiting] using h.symm
    subst this
    decide
  underflow := by decide
  overflow := by decide

theorem halted_inv : Inv Config.defaultGlyph halted where
  canonical := by decide
  glyphs := by decide
  iLow := by decide
  waiting := by decide
  underflow := by decide
  overflow := by decide

theorem full_inv : Inv Config.defaultGlyph full where
  canonical := by decide
  glyphs := by decide
  iLow := by decide
  waiting := by decide
  underflow := by decide
  overflow := by decide

/-- A core about to store over the border of the glyph table. -/
def storing : State := at' { withV [(0, 123)] with ireg := 0x09E } 0xF033

theorem storing_inv : Inv Config.defaultGlyph storing where
  canonical := by decide
  glyphs := by decide
  iLow := by decide
  waiting := by decide
  underflow := by decide
  overflow := by decide

theorem witness_EveryStepKeepsTheInvariant :
    (Inv Config.defaultGlyph waiting ∧ ∃ t, step waiting = .next t ∧ (t.readV 2 == 7) = true) ∧
    (Inv Config.defaultGlyph halted ∧ ∃ t, step halted = .next t ∧ (t == halted) = true) ∧
    (Inv Config.defaultGlyph full ∧ ∃ t, step full = .next t ∧ (t == full) = true) ∧
    (Inv Config.defaultGlyph storing ∧ ∃ t, step storing = .next t ∧ (t.memRead 0x0A0 == 3) = true) :=
  ⟨⟨waiting_inv, exists_step (p := fun t => t.readV 2 == 7) (by decide)⟩,
    ⟨halted_inv, exists_step (p := fun t => t == halted) (by decide +kernel)⟩,
    ⟨full_inv, exists_step (p := fun t => t == full) (by decide +kernel)⟩,
    ⟨storing_inv, exists_step (p := fun t => t.memRead 0x0A0 == 3) (by decide)⟩⟩

/-- Each action of the host, on a system where it answers a next one; Load on an open system, with an empty image too. -/
theorem witness_EveryHostOperationKeepsTheSystemInvariant :
    (SystemInv Config.defaultGlyph ⟨waiting, false⟩ ∧
      (∃ z, System.apply ⟨waiting, false⟩ .reset = .next z) ∧ (∃ z, System.apply ⟨waiting, false⟩ .step = .next z) ∧
      (∃ z, System.apply ⟨waiting, false⟩ (.keysWrite 0xF true) = .next z) ∧
      (∃ z, System.apply ⟨waiting, false⟩ .ackRedraw = .next z)) ∧
    (SystemInv Config.defaultGlyph ⟨storing, true⟩ ∧
      (∃ z, System.apply ⟨storing, true⟩ (.load []) = .next z) ∧
      (∃ z, System.apply ⟨storing, true⟩ (.load [0x12, 0x00]) = .next z)) :=
  ⟨⟨⟨waiting_inv, by decide⟩, ⟨_, rfl⟩, ⟨_, rfl⟩, ⟨_, rfl⟩, ⟨_, rfl⟩⟩, ⟨⟨storing_inv, by decide⟩, ⟨_, rfl⟩, ⟨_, rfl⟩⟩⟩

/-- A system a program was loaded into, and one step later. -/
theorem witness_ReachableCoresMeetTheInvariant : ∃ y, Reachable y ∧ y.core.readV 0 = 7 :=
  ⟨_, .apply .step (.apply (.load [0x60, 0x07]) .start rfl) rfl, by decide⟩

/-- The same bytes written in two orders. -/
theorem witness_CanonicalMemoriesThatReadAlikeAreEqual :
    ((State.reset.mem.write 0x300 1).write 0x000 2).wf ∧ ((State.reset.mem.write 0x000 2).write 0x300 1).wf ∧
    ∀ a < 4096, ((State.reset.mem.write 0x300 1).write 0x000 2).read a = ((State.reset.mem.write 0x000 2).write 0x300 1).read a := by
  have h : (State.reset.mem.write 0x300 1).write 0x000 2 = (State.reset.mem.write 0x000 2).write 0x300 1 := by decide
  exact ⟨by decide, by decide, fun a _ => by rw [h]⟩

/-- Reset from a dirty state; the cells next to the glyph table and the last one. -/
theorem witness_ResetLeavesTheValuesOfTheResetTable : (∃ s t : State, t = s.resetOf ∧ s.fault = .stackOverflow ∧ s.dt = 7) ∧
    ¬ InGlyphTable 0x000 ∧ ¬ InGlyphTable 0x04F ∧ ¬ InGlyphTable 0x0A0 ∧ ¬ InGlyphTable 0xFFF :=
  ⟨⟨{ State.reset with fault := .stackOverflow, dt := 7 }, _, rfl, rfl, rfl⟩, by decide⟩

/-- Load allowed with the longest image and one byte more, Load not allowed, a step, a Reset; the first and last byte of an
image and the cells around it. -/
theorem witness_LoadCopiesTheImageOrChangesNothing : System.start.loadOpen = true ∧
    (List.replicate 3584 (0xFF : Byte)).length ≤ 3584 ∧ 3584 < (List.replicate 3585 (0xFF : Byte)).length ∧
    ([] : List Byte).length ≤ 3584 ∧ (0 < 3584 ∧ 3583 < (List.replicate 3584 (0xFF : Byte)).length) ∧
    (0x1FF < 4096 ∧ (0x1FF < 0x200 ∨ 0x200 + 2 ≤ 0x1FF)) ∧ (0x202 < 4096 ∧ (0x202 < 0x200 ∨ 0x200 + 2 ≤ 0x202)) ∧
    (System.mk State.reset false).loadOpen = false ∧ (∃ z, System.start.step = .next z) ∧
    (∃ z, System.start.apply .reset = .next z) := by
  rw [List.length_replicate, List.length_replicate]
  exact ⟨rfl, by decide, by decide, by decide, by decide, by decide, by decide, rfl, ⟨_, rfl⟩, ⟨_, rfl⟩⟩

theorem witness_KeysWriteSetsOneKey : (0xF#4 : Nibble) ≠ 0x0#4 := by decide

theorem witness_CallPushesTheReturnAddress : (State.reset.sp.val < 16) ∧ ({ State.reset with sp := 15 } : State).sp.val < 16 ∧
    ({ State.reset with sp := 16 } : State).sp.val = 16 := by decide

theorem witness_RetPopsPc : 0 < ({ State.reset with sp := 1 } : State).sp.val ∧
    (0 : Fin 16).val + 1 = ({ State.reset with sp := 1 } : State).sp.val ∧
    (15 : Fin 16).val + 1 = ({ State.reset with sp := 16 } : State).sp.val ∧ State.reset.sp.val = 0 := by decide

/-- A CALL into the last slot, and another state with the stack it leaves. -/
theorem witness_RetAfterCallResumesAfterTheCall : ({ State.reset with sp := 15 } : State).sp.val < 16 ∧
    ∃ t u : State, exec (.call 0x300) { State.reset with sp := 15 } = .next t ∧ u.sp = t.sp ∧ u.stack = t.stack ∧ u.dt = 9 :=
  ⟨by decide, _, { State.reset with sp := 16, stack := State.reset.stack.set 15 0x202, dt := 9 }, rfl, by decide, by decide, rfl⟩

theorem witness_RegisterSkipsCompareTwoRegisters : (0x1#4 : Nibble) ≠ 0 ∧ (0xF#4 : Nibble) ≠ 0 := by decide

/-- I at both borders of the glyph table: two digits dropped, one dropped, none; and an address no digit goes to. -/
theorem witness_LdBStoresThreeDigits :
    (InGlyphTable (State.iAddr { State.reset with ireg := 0x09E } 1) ∧
      ¬ InGlyphTable (State.iAddr { State.reset with ireg := 0x09E } 2)) ∧
    (¬ InGlyphTable (State.iAddr { State.reset with ireg := 0x04E } 1) ∧
      InGlyphTable (State.iAddr { State.reset with ireg := 0x04E } 2)) ∧
    (∀ k < 3, ¬ InGlyphTable (State.iAddr { State.reset with ireg := 0xFFF } k)) ∧
    (∀ k < 3, 0x002 % 4096 ≠ State.iAddr { State.reset with ireg := 0xFFF } k % 4096) := by decide

/-- x = 0 and x = 15, over the top of memory and over the border of the glyph table. -/
theorem witness_LdMemStoresV0ToVx :
    ((0x0#4 : RegIdx).toNat ≤ (0x0#4 : RegIdx).toNat ∧ ¬ InGlyphTable (State.iAddr { State.reset with ireg := 0xFFF } 0)) ∧
    (∀ k ≤ (0xF#4 : RegIdx).toNat, ¬ InGlyphTable (State.iAddr { State.reset with ireg := 0xFFF } k)) ∧
    InGlyphTable (State.iAddr { State.reset with ireg := 0x091 } (0xE#4 : RegIdx).toNat) ∧
    ¬ InGlyphTable (State.iAddr { State.reset with ireg := 0x091 } (0xF#4 : RegIdx).toNat) ∧
    (∀ k ≤ (0xF#4 : RegIdx).toNat, 0x00F % 4096 ≠ State.iAddr { State.reset with ireg := 0xFFF } k % 4096) := by decide

/-- The next word at the usual place, and over the top of memory. -/
theorem witness_AStoreIsSeenByTheNextFetch :
    (1 ≤ (0x1#4 : RegIdx).toNat ∧
      ({ State.reset with ireg := 0x202 } : State).ireg.toNat % 4096 = (State.reset.pc.toNat + 2) % 4096 ∧
      ¬ InGlyphTable 0x202 ∧ ¬ InGlyphTable (0x202 + 1)) ∧
    (({ State.reset with ireg := 0xFFF, pc := 0xFFFD } : State).ireg.toNat % 4096 =
        (({ State.reset with ireg := 0xFFF, pc := 0xFFFD } : State).pc.toNat + 2) % 4096 ∧
      ¬ InGlyphTable 0xFFF ∧ ¬ InGlyphTable (0xFFF + 1)) := by decide

/-- A one-pixel sprite at cell 0, with cell 0 as `b` says. -/
def pixel (b : Bool) : State :=
  { ({ State.reset with ireg := 0x300 }.memWrite 0x300 0x80) with fb := if b then 1 else 0 }

theorem pixel_lights (b : Bool) : Lights (pixel b) 0 1 1 0 := ⟨0, 0, by decide, by decide, by cases b <;> decide, by cases b <;> decide⟩

theorem nothing_lights (s : State) (c : Nat) : ¬ Lights s 0 1 0 c := by
  rintro ⟨row, _, h, _⟩
  exact absurd h (Nat.not_lt_zero row)

/-- A lit cell inverted with a collision, no collision on an empty display, and a cell not touched. -/
theorem witness_DrwXorsTheSpriteAndFlagsCollision :
    (∃ c, Lights (pixel true) 0 1 1 c ∧ (pixel true).cell c = true) ∧
    (Lights (pixel false) 0 1 1 0 ∧ ¬ ∃ c, Lights (pixel false) 0 1 1 c ∧ (pixel false).cell c = true) ∧
    ¬ Lights (pixel true) 0 1 0 0 ∧ (0xE#4 : RegIdx) ≠ 0xF#4 := by
  refine ⟨⟨0, pixel_lights true, by decide +kernel⟩, ⟨pixel_lights false, ?_⟩, nothing_lights _ _, by decide⟩
  rintro ⟨c, -, h⟩
  simp [pixel, State.cell] at h

/-- A sprite pixel at column VF: the first draw of `DF11` leaves VF = 0, and its second draw lights cell 0; with cell 0 lit at
first, the first draw leaves VF = 1 and the second finds the pixel's new cell 1 dark. -/
theorem witness_ASecondDrawTakesTheFlagWhereVfIsACoordinate :
    (∃ t, exec (.drw 0xF 1 1) (pixel false) = .next t ∧ (t.readV 0xF == 0 && t.cell 0) = true) ∧
    SpriteLights (pixel false) 0 0 1 0 ∧
    (∃ t, exec (.drw 0xF 1 1) (pixel true) = .next t ∧ (t.readV 0xF == 1 && !t.cell 1) = true) ∧
    SpriteLights (pixel true) 1 0 1 1 :=
  ⟨exists_exec (p := fun t => t.readV 0xF == 0 && t.cell 0) (by decide +kernel), pixel_lights false,
    exists_exec (p := fun t => t.readV 0xF == 1 && !t.cell 1) (by decide +kernel),
    ⟨0, 0, by decide, by decide, by decide, by decide⟩⟩

/-- Both outcomes of the second draw: a cell that was 0 at first, and none; a cell that the first draw leaves 1. -/
theorem witness_DrawingTwiceRestoresTheDisplay : (0x0#4 : RegIdx) ≠ 0xF#4 ∧ (0xE#4 : RegIdx) ≠ 0xF#4 ∧
    (∃ c, Lights (pixel false) 0 1 1 c ∧ (pixel false).cell c = false) ∧
    (¬ ∃ c, Lights (pixel true) 0 1 0 c ∧ (pixel true).cell c = false) ∧
    (∃ t, exec (.drw 0 1 1) (pixel false) = .next t ∧ t.cell 0 = true) := by
  refine ⟨by decide, by decide, ⟨0, pixel_lights false, by decide +kernel⟩, ?_,
    exists_exec (p := fun t => t.cell 0) (by decide +kernel)⟩
  rintro ⟨c, h, -⟩
  exact nothing_lights _ _ h

end Sys2Proof.Tests
end

section
/-! PROOFS. A step always answers a next state (spec/40_step_cycle.md R101): the equation of `step` in each of its four cases,
and that no instruction answers anything but a next state. -/

namespace Sys2Proof.Machine

/-! ## The equations of a step -/

theorem step_halted {s : State} (hf : s.fault ≠ .running) : step s = .next s := by
  simp [step, hf]

theorem step_waiting {s : State} {r : RegIdx} (hf : s.fault = .running) (ha : s.await = some r) :
    step s = .next (s.keyWaitStep r).endStep := by
  simp [step, hf, ha]

theorem step_decoded {s : State} {i : Instr} (hf : s.fault = .running) (ha : s.await = none)
    (hd : decodeWord s.fetchWord = some i) : step s = settle (exec i s) := by
  simp [step, hf, ha, hd]

theorem step_unsupported {s : State} (hf : s.fault = .running) (ha : s.await = none)
    (hd : decodeWord s.fetchWord = none) : step s = .next s.unsupportedStep := by
  simp [step, hf, ha, hd]

/-- The rest of a step turns a next state into a next state, whether the instruction faulted or not. -/
theorem settle_next (t : State) : settle (.next t) = .next (if t.fault = .running then t.endStep else t) := by
  by_cases h : t.fault = .running
  · rw [settle_next_running h, if_pos h]
  · rw [settle_next_faulted h, if_neg h]

/-! ## Every instruction and every step answers a next state -/

/-- Only CALL and RET can fault, and a fault is a next state too (R212, log 1); every other meaning is a next state as it
is written. -/
theorem exec_answers_next (i : Instr) (s : State) : ∃ u, exec i s = .next u := by
  cases i with
  | call nnn =>
    obtain ⟨_, h⟩ | ⟨_, h⟩ := execCall_cases nnn s
    · exact ⟨_, h⟩
    · exact ⟨_, h⟩
  | ret =>
    obtain ⟨_, h⟩ | ⟨_, h⟩ := execRet_cases s
    · exact ⟨_, h⟩
    · exact ⟨_, h⟩
  | _ => exact ⟨_, rfl⟩

/-- Settles O9, by the four cases of a step (R90): halted, waiting, an instruction, an unsupported word. -/
theorem everyStepAnswersANextState : Obligations.EveryStepAnswersANextState := by
  intro s
  by_cases hf : s.fault = .running
  · cases ha : s.await with
    | some r => exact ⟨_, step_waiting hf ha⟩
    | none =>
      cases hd : decodeWord s.fetchWord with
      | some i =>
        obtain ⟨u, hu⟩ := exec_answers_next i s
        exact ⟨_, by rw [step_decoded hf ha hd, hu, settle_next]⟩
      | none => exact ⟨_, step_unsupported hf ha hd⟩
  · exact ⟨s, step_halted hf⟩

end Sys2Proof.Machine
end

section
/-! PROOFS. The frame of an instruction: which parts of the state each instruction may write, and that PC apart it leaves
every other part as it was (spec/40_step_cycle.md R94). -/

namespace Sys2Proof

open Machine

/-- The parts of the state an instruction may write, PC apart. -/
def Instr.writes : Instr → List Part
  | .cls => [.fb, .redraw]
  | .ret | .call _ => [.stack, .fault]
  | .jp _ | .jpV0 _ | .seImm _ _ | .sneImm _ _ | .seReg _ _ | .sneReg _ _ | .skp _ | .sknp _ => []
  | .ldImm _ _ | .addImm _ _ | .ldReg _ _ | .orReg _ _ | .andReg _ _ | .xorReg _ _ | .addReg _ _ | .subReg _ _ => [.regs]
  | .shr _ _ | .subnReg _ _ | .shl _ _ | .ldVxDt _ | .ldVxMem _ => [.regs]
  | .rnd _ _ => [.regs, .draws]
  | .drw _ _ _ => [.regs, .fb, .redraw]
  | .ldI _ | .addI _ | .ldF _ => [.ireg]
  | .ldVxK _ => [.await]
  | .ldDtVx _ => [.dt]
  | .ldStVx _ => [.st]
  | .ldB _ | .ldMemVx _ => [.mem]

end Sys2Proof

namespace Sys2Proof.Machine

theorem await_mem_writes {i : Instr} : Part.await ∈ i.writes ↔ ∃ x, i = .ldVxK x := by
  cases i <;> simp [Instr.writes]

theorem redraw_mem_writes {i : Instr} : Part.redraw ∈ i.writes ↔ i = .cls ∨ ∃ x y n, i = .drw x y n := by
  cases i <;> simp [Instr.writes]

theorem mem_mem_writes {i : Instr} : Part.mem ∈ i.writes ↔ ∃ x, i = .ldB x ∨ i = .ldMemVx x := by
  cases i <;> simp [Instr.writes]

theorem ireg_mem_writes {i : Instr} :
    Part.ireg ∈ i.writes ↔ (∃ nnn, i = .ldI nnn) ∨ (∃ x, i = .addI x) ∨ ∃ x, i = .ldF x := by
  cases i <;> simp [Instr.writes]

theorem fault_mem_writes {i : Instr} : Part.fault ∈ i.writes ↔ i = .ret ∨ ∃ nnn, i = .call nnn := by
  cases i <;> simp [Instr.writes]

/-! ## Overlaying parts of one state on another -/

/-- The state `s` with one part taken from `u`. -/
def Part.copy (u s : State) : Part → State
  | .regs => { s with v := u.v }
  | .ireg => { s with ireg := u.ireg }
  | .stack => { s with sp := u.sp, stack := u.stack }
  | .mem => { s with mem := u.mem }
  | .fb => { s with fb := u.fb }
  | .redraw => { s with redraw := u.redraw }
  | .dt => { s with dt := u.dt }
  | .st => { s with st := u.st }
  | .keys => { s with keys := u.keys }
  | .kprev => { s with kprev := u.kprev }
  | .await => { s with await := u.await }
  | .fault => { s with fault := u.fault }
  | .draws => { s with draws := u.draws }

/-- The state `s` with PC and the listed parts taken from `u`. -/
def State.overlay (u s : State) : List Part → State
  | [] => { s with pc := u.pc }
  | p :: ps => p.copy u (u.overlay s ps)

theorem Part.kept_setPc (p : Part) (s : State) (w : Word) : p.Kept s { s with pc := w } := by
  cases p <;> simp [Part.Kept, State.readV, State.memRead, State.cell]

/-- Taking one part from elsewhere says nothing of another part. -/
theorem Part.kept_copy_iff {p q : Part} (h : p ≠ q) (s t u : State) : p.Kept s (q.copy u t) ↔ p.Kept s t := by
  cases q <;> cases p <;> simp [Part.copy, Part.Kept, State.readV, State.memRead, State.cell] at h ⊢

theorem keepsAllBut_overlay (u s : State) (ps : List Part) : KeepsAllBut s (u.overlay s ps) ps := by
  induction ps with
  | nil => exact fun p _ => p.kept_setPc s u.pc
  | cons q qs ih =>
    intro p hp
    rw [List.mem_cons, not_or] at hp
    exact (Part.kept_copy_iff hp.1 s _ u).mpr (ih p hp.2)

/-! ## What an instruction leaves alone -/

/-- The next state of an instruction is the old one with PC and the parts of `Instr.writes` new. -/
theorem exec_eq_overlay {i : Instr} {s u : State} (h : exec i s = .next u) : u = u.overlay s i.writes := by
  cases i with
  | call nnn =>
    obtain ⟨_, e⟩ | ⟨_, e⟩ := execCall_cases nnn s <;> obtain rfl := Host.Outcome.next.inj (e.symm.trans h) <;> rfl
  | ret =>
    obtain ⟨_, e⟩ | ⟨_, e⟩ := execRet_cases s <;> obtain rfl := Host.Outcome.next.inj (e.symm.trans h) <;> rfl
  | ldB x | ldMemVx x =>
    obtain rfl := Host.Outcome.next.inj h
    rw [s.storeBytes_eq]
    rfl
  | ldVxMem x =>
    obtain rfl := Host.Outcome.next.inj h
    rw [s.loadRegs_eq]
    rfl
  | _ => obtain rfl := Host.Outcome.next.inj h; rfl

/-- An instruction keeps every part it does not write. -/
theorem exec_keeps {i : Instr} {s u : State} (h : exec i s = .next u) : KeepsAllBut s u i.writes :=
  exec_eq_overlay h ▸ keepsAllBut_overlay u s i.writes

/-- Of memory even more is kept than that every cell reads as before: it is the same data. -/
theorem overlay_mem (u s : State) {ps : List Part} (h : Part.mem ∉ ps) : (u.overlay s ps).mem = s.mem := by
  induction ps with
  | nil => rfl
  | cons q qs ih =>
    rw [List.mem_cons, not_or] at h
    refine Eq.trans ?_ (ih h.2)
    cases q with
    | mem => exact absurd rfl h.1
    | _ => rfl

theorem exec_mem_eq {i : Instr} {s u : State} (h : exec i s = .next u) (hm : Part.mem ∉ i.writes) : u.mem = s.mem :=
  (congrArg State.mem (exec_eq_overlay h)).trans (overlay_mem u s hm)

end Sys2Proof.Machine
end

section
/-! PROOFS. The decoder against the encoder (spec/30_encoding.md R71, R74, R75): a word that decodes to an instruction is the
word of that instruction. -/

namespace Sys2Proof

/-! ## A word is what each format makes of its fields -/

theorem formatR_of_fields {w : Word} {op low : BitVec 4} (ho : opField w = op) (hl : nField w = low) :
    formatR op (xField w) (yField w) low = w := by
  subst ho hl
  exact word_eq_nibbles w

theorem formatA_of_fields {w : Word} {op : BitVec 4} (ho : opField w = op) : formatA op (nnnField w) = w := by
  subst ho
  apply BitVec.eq_of_getLsbD_eq
  intro i hi
  simp only [formatA_bit, opField, nnnField, BitVec.getLsbD_extractLsb']
  interval_cases i <;> simp

theorem formatI_of_fields {w : Word} {op : BitVec 4} (ho : opField w = op) : formatI op (xField w) (kkField w) = w := by
  subst ho
  apply BitVec.eq_of_getLsbD_eq
  intro i hi
  simp only [formatI_bit, opField, xField, kkField, BitVec.getLsbD_extractLsb']
  interval_cases i <;> simp

theorem formatX_of_fields {w : Word} {op : BitVec 4} {fn : Byte} (ho : opField w = op) (hf : kkField w = fn) :
    formatX op (xField w) fn = w :=
  hf ▸ formatI_of_fields ho

/-! ## The four dispatches within a top nibble, and the decoder -/

theorem encode_of_decodeZero {w : Word} {i : Instr} (h : decodeZero w = some i) : encode i = w := by
  unfold decodeZero at h
  split_ifs at h with h1 h2
  · obtain rfl := Option.some.inj h
    exact h1.symm
  · obtain rfl := Option.some.inj h
    exact h2.symm

theorem encode_of_decodeEight {w : Word} {i : Instr} (ho : opField w = 0x8#4) (h : decodeEight w = some i) :
    encode i = w := by
  unfold decodeEight at h
  split_ifs at h <;> obtain rfl := Option.some.inj h <;> exact formatR_of_fields ho ‹_›

theorem encode_of_decodeE {w : Word} {i : Instr} (ho : opField w = 0xE#4) (h : decodeE w = some i) : encode i = w := by
  unfold decodeE at h
  split_ifs at h <;> obtain rfl := Option.some.inj h <;> exact formatX_of_fields ho ‹_›

theorem encode_of_decodeF {w : Word} {i : Instr} (ho : opField w = 0xF#4) (h : decodeF w = some i) : encode i = w := by
  unfold decodeF at h
  split_ifs at h <;> obtain rfl := Option.some.inj h <;> exact formatX_of_fields ho ‹_›

/-- The sixteen top nibbles the decoder classifies by. -/
theorem nibble_cases (b : BitVec 4) : b = 0x0#4 ∨ b = 0x1#4 ∨ b = 0x2#4 ∨ b = 0x3#4 ∨ b = 0x4#4 ∨ b = 0x5#4 ∨ b = 0x6#4 ∨
    b = 0x7#4 ∨ b = 0x8#4 ∨ b = 0x9#4 ∨ b = 0xA#4 ∨ b = 0xB#4 ∨ b = 0xC#4 ∨ b = 0xD#4 ∨ b = 0xE#4 ∨ b = 0xF#4 := by
  revert b
  decide

/-- A word that decodes to an instruction is that instruction's word. -/
theorem encode_of_decodeWord {w : Word} {i : Instr} (h : decodeWord w = some i) : encode i = w := by
  rcases nibble_cases (opField w) with ho | ho | ho | ho | ho | ho | ho | ho | ho | ho | ho | ho | ho | ho | ho | ho <;>
    simp only [decodeWord, ho, BitVec.reduceEq, if_true, if_false, Option.some.injEq, Option.ite_none_right_eq_some] at h
  · exact encode_of_decodeZero h
  · exact h ▸ formatA_of_fields ho
  · exact h ▸ formatA_of_fields ho
  · exact h ▸ formatI_of_fields ho
  · exact h ▸ formatI_of_fields ho
  · exact h.2 ▸ formatR_of_fields ho h.1
  · exact h ▸ formatI_of_fields ho
  · exact h ▸ formatI_of_fields ho
  · exact encode_of_decodeEight ho h
  · exact h.2 ▸ formatR_of_fields ho h.1
  · exact h ▸ formatA_of_fields ho
  · exact h ▸ formatA_of_fields ho
  · exact h ▸ formatI_of_fields ho
  · exact h ▸ formatR_of_fields ho rfl
  · exact encode_of_decodeE ho h
  · exact encode_of_decodeF ho h

theorem word_of_decode_ret {w : Word} (h : decodeWord w = some .ret) : w = 0x00EE#16 :=
  (encode_of_decodeWord h).symm

theorem opField_of_decode_call {w : Word} {nnn : Addr} (h : decodeWord w = some (.call nnn)) : opField w = 0x2#4 :=
  encode_of_decodeWord h ▸ opField_formatA 0x2#4 nnn

theorem word_of_decode_ldVxK {w : Word} {x : RegIdx} (h : decodeWord w = some (.ldVxK x)) : w = 0xF#4 ++ x ++ 0x0A#8 :=
  (encode_of_decodeWord h).symm

end Sys2Proof
end

section
/-! PROOFS. What one step makes of the state: the step's result in terms of its instruction's, and what every instruction and
the key wait do to memory, I, AWAIT and FAULT (spec/40_step_cycle.md R90, R95, R97 to R100). -/

namespace Sys2Proof.Machine

/-! ## The end of a step that executed an instruction -/

/-- What a step makes of the state its instruction left: a fault ends the step at once (R100), otherwise the tick and the
key bookkeeping follow (R97, R98). -/
def State.finish (u : State) : State := if u.fault = .running then u.endStep else u

theorem settle_next_finish (u : State) : settle (.next u) = .next u.finish := settle_next u

theorem State.finish_cases (u : State) : u.finish = u.endStep ∨ u.finish = u := by
  unfold State.finish
  exact ite_eq_or_eq _ _ _

@[simp] theorem State.finish_ireg (u : State) : u.finish.ireg = u.ireg := by
  rcases u.finish_cases with h | h <;> simp [h]
@[simp] theorem State.finish_pc (u : State) : u.finish.pc = u.pc := by
  rcases u.finish_cases with h | h <;> simp [h]
@[simp] theorem State.finish_sp (u : State) : u.finish.sp = u.sp := by
  rcases u.finish_cases with h | h <;> simp [h]
@[simp] theorem State.finish_mem (u : State) : u.finish.mem = u.mem := by
  rcases u.finish_cases with h | h <;> simp [h]
@[simp] theorem State.finish_await (u : State) : u.finish.await = u.await := by
  rcases u.finish_cases with h | h <;> simp [h]
@[simp] theorem State.finish_redraw (u : State) : u.finish.redraw = u.redraw := by
  rcases u.finish_cases with h | h <;> simp [h]
@[simp] theorem State.finish_fault (u : State) : u.finish.fault = u.fault := by
  rcases u.finish_cases with h | h <;> simp [h]

/-- `step_cases` with the two ends of an executed instruction taken together. -/
theorem step_finish_cases {s t : State} (h : step s = .next t) :
    (s.fault ≠ .running ∧ t = s) ∨
    (s.fault = .running ∧ ∃ r, s.await = some r ∧ t = (s.keyWaitStep r).endStep) ∨
    (s.fault = .running ∧ s.await = none ∧ ∃ i u, decodeWord s.fetchWord = some i ∧ exec i s = .next u ∧ t = u.finish) ∨
    (s.fault = .running ∧ s.await = none ∧ decodeWord s.fetchWord = none ∧ t = s.unsupportedStep) := by
  obtain h | h | ⟨hf, ha, i, u, hd, hu, ht⟩ | h := step_cases h
  · exact .inl h
  · exact .inr (.inl h)
  · refine .inr (.inr (.inl ⟨hf, ha, i, u, hd, hu, ?_⟩))
    obtain ⟨hr, rfl⟩ | ⟨hr, rfl⟩ := ht
    · exact (if_pos hr).symm
    · exact (if_neg hr).symm
  · exact .inr (.inr (.inr h))

/-! ## The key wait -/

@[simp] theorem State.keyWaitStep_ireg (s : State) (r : RegIdx) : (s.keyWaitStep r).ireg = s.ireg := by
  obtain ⟨k, -, h⟩ | ⟨-, h⟩ := s.keyWaitStep_cases r <;> simp [h]
@[simp] theorem State.keyWaitStep_mem (s : State) (r : RegIdx) : (s.keyWaitStep r).mem = s.mem := by
  obtain ⟨k, -, h⟩ | ⟨-, h⟩ := s.keyWaitStep_cases r <;> simp [h]
@[simp] theorem State.keyWaitStep_redraw (s : State) (r : RegIdx) : (s.keyWaitStep r).redraw = s.redraw := by
  obtain ⟨k, -, h⟩ | ⟨-, h⟩ := s.keyWaitStep_cases r <;> simp [h]
@[simp] theorem State.keyWaitStep_fault (s : State) (r : RegIdx) : (s.keyWaitStep r).fault = s.fault := by
  obtain ⟨k, -, h⟩ | ⟨-, h⟩ := s.keyWaitStep_cases r <;> simp [h]

/-- The wait ends on an edge, and goes on without one. -/
theorem State.keyWaitStep_await_of_edge {s : State} (r : RegIdx) (h : ∃ k < 16, PressEdge s k) :
    (s.keyWaitStep r).await = none := by
  obtain ⟨k, -, e⟩ | ⟨hn, -⟩ := s.keyWaitStep_cases r
  · rw [e]
  · obtain ⟨k, hk, he⟩ := h
    exact absurd he (State.lowestEdge_eq_none.mp hn k hk)

theorem State.keyWaitStep_of_no_edge {s : State} (r : RegIdx) (h : ∀ k < 16, ¬ PressEdge s k) : s.keyWaitStep r = s := by
  unfold State.keyWaitStep
  rw [State.lowestEdge_eq_none.mpr h]

/-! ## What an executed instruction makes of memory, I, AWAIT and FAULT -/

/-- Memory after any instruction is the old one with some bytes stored, none unless it is a store. -/
theorem exec_mem {i : Instr} {s u : State} (h : exec i s = .next u) : ∃ a bs, u.mem = s.mem.loadBytes a bs := by
  by_cases hm : Part.mem ∈ i.writes
  · obtain ⟨x, rfl | rfl⟩ := mem_mem_writes.mp hm <;> obtain rfl := Host.Outcome.next.inj h
    · exact ⟨_, _, s.storeBytes_mem _ _⟩
    · exact ⟨_, _, s.storeBytes_mem _ _⟩
  · exact ⟨0, [], exec_mem_eq h hm⟩

@[simp] theorem Memory.loadBytes_glyph (m : Memory) (a : Nat) (bs : List Byte) : (m.loadBytes a bs).glyph = m.glyph := by
  induction bs generalizing m a with
  | nil => rfl
  | cons b bs ih => rw [Memory.loadBytes, ih, Memory.write_glyph]

/-- Whatever an instruction puts into I is below 4096: an address field, a sum modulo 4096, or the address of the glyph of a
byte, at most 0x050 + 5 · 255 (R23, R151, R153, R155). -/
theorem exec_ireg_lt {i : Instr} {s u : State} (h : exec i s = .next u) (hs : s.ireg.toNat < 4096) :
    u.ireg.toNat < 4096 := by
  by_cases hi : Part.ireg ∈ i.writes
  · obtain ⟨nnn, rfl⟩ | ⟨x, rfl⟩ | ⟨x, rfl⟩ := ireg_mem_writes.mp hi <;> obtain rfl := Host.Outcome.next.inj h
    · exact (addrWord_toNat nnn).trans_lt nnn.isLt
    · simp only [State.advance_ireg, State.addITarget, BitVec.toNat_ofNat, Config.memSize]
      omega
    · have := (s.readV x).isLt
      simp only [State.advance_ireg, State.glyphAddr, BitVec.toNat_ofNat, Config.glyphBase]
      exact (Nat.mod_le _ _).trans_lt (by omega)
  · have kept : u.ireg = s.ireg := exec_keeps h .ireg hi
    rwa [kept]

/-- A core that waits for no key waits after an instruction exactly if that was LD Vx, K (R36, R198). -/
theorem exec_await_iff {i : Instr} {s u : State} (h : exec i s = .next u) (ha : s.await = none) (x : RegIdx) :
    u.await = some x ↔ i = .ldVxK x := by
  by_cases hw : Part.await ∈ i.writes
  · obtain ⟨y, rfl⟩ := await_mem_writes.mp hw
    obtain rfl := Host.Outcome.next.inj h
    simp
  · have kept : u.await = s.await := exec_keeps h .await hw
    rw [kept, ha]
    exact iff_of_false nofun fun e => hw (await_mem_writes.mpr ⟨x, e⟩)

/-- Only a RET on an empty stack and a CALL on a full one halt the core, and they change nothing but FAULT (R100, R212). -/
theorem exec_faulted {i : Instr} {s u : State} (h : exec i s = .next u) (hs : s.fault = .running)
    (hu : u.fault ≠ .running) :
    (i = .ret ∧ s.sp.val = 0 ∧ u = { s with fault := .stackUnderflow }) ∨
      ((∃ nnn, i = .call nnn) ∧ s.sp.val = 16 ∧ u = { s with fault := .stackOverflow }) := by
  have hw : Part.fault ∈ i.writes := by
    by_contra hn
    have kept : u.fault = s.fault := exec_keeps h .fault hn
    exact hu (kept.trans hs)
  obtain rfl | ⟨nnn, rfl⟩ := fault_mem_writes.mp hw
  · obtain ⟨_, e⟩ | ⟨h0, e⟩ := execRet_cases s <;> obtain rfl := Host.Outcome.next.inj (e.symm.trans h)
    · exact absurd hs hu
    · exact .inl ⟨rfl, h0, rfl⟩
  · obtain ⟨_, e⟩ | ⟨h16, e⟩ := execCall_cases nnn s <;> obtain rfl := Host.Outcome.next.inj (e.symm.trans h)
    · exact absurd hs hu
    · exact .inr ⟨⟨nnn, rfl⟩, h16, rfl⟩

end Sys2Proof.Machine
end

section
/-! PROOFS. The invariants of the state (spec/10_state.md R41, R211, R219) hold at reset and are kept by every step and by every
operation of the host. -/

namespace Sys2Proof.Machine

/-! ## Ways to meet the invariant -/

theorem State.fetchWord_congr {s t : State} (hm : t.mem = s.mem) (hp : t.pc = s.pc) : t.fetchWord = s.fetchWord := by
  simp only [State.fetchWord, State.memRead, hm, hp]

/-- The glyph cells read as `g` exactly when `g` is the glyph table of memory (R30). -/
theorem glyphs_iff {g : Vector Byte 80} {s : State} :
    (∀ i : Fin 80, s.memRead (0x050 + i.val) = g[i]) ↔ s.mem.glyph = g := by
  simp only [State.memRead, Memory.read_glyphCell]
  exact ⟨fun h => Vector.ext fun i hi => h ⟨i, hi⟩, fun h _ => h ▸ rfl⟩

section invariant

variable {g : Vector Byte 80} {s t : State}

theorem Inv.glyph_eq (h : Inv g s) : s.mem.glyph = g := glyphs_iff.mp h.glyphs

/-- A core that runs and waits for no key owes nothing to the word at its PC. -/
theorem inv_of_idle (hc : t.mem.wf) (hg : t.mem.glyph = g) (hi : t.ireg.toNat < 4096) (hf : t.fault = .running)
    (ha : t.await = none) : Inv g t where
  canonical := hc
  glyphs := glyphs_iff.mpr hg
  iLow := hi
  waiting r hr := by simp [ha] at hr
  underflow h := by simp [hf] at h
  overflow h := by simp [hf] at h

/-- The invariant looks at memory, I, PC, SP, AWAIT and FAULT only. -/
theorem Inv.congr (h : Inv g s) (hm : t.mem = s.mem) (hi : t.ireg = s.ireg) (hp : t.pc = s.pc) (hsp : t.sp = s.sp)
    (ha : t.await = s.await) (hf : t.fault = s.fault) : Inv g t where
  canonical := hm ▸ h.canonical
  glyphs := glyphs_iff.mpr (hm ▸ h.glyph_eq)
  iLow := hi ▸ h.iLow
  waiting r hr := by
    rw [State.fetchWord_congr hm hp]
    exact h.waiting r (ha ▸ hr)
  underflow e := by
    rw [State.fetchWord_congr hm hp, hsp, ha]
    exact h.underflow (hf ▸ e)
  overflow e := by
    rw [State.fetchWord_congr hm hp, hsp, ha]
    exact h.overflow (hf ▸ e)

/-! ## Every step keeps the invariant -/

/-- A waiting core goes on at its PC or waits no more (R95, R199). -/
theorem Inv.endStep_keyWaitStep (h : Inv g s) (hf : s.fault = .running) (r : RegIdx) :
    Inv g (s.keyWaitStep r).endStep := by
  by_cases he : ∃ k < 16, PressEdge s k
  · have idle : (s.keyWaitStep r).endStep.await = none := State.keyWaitStep_await_of_edge r he
    exact inv_of_idle (by simpa using h.canonical) (by simpa using h.glyph_eq) (by simpa using h.iLow) (by simpa using hf) idle
  · rw [State.keyWaitStep_of_no_edge r (by simpa using he)]
    exact h.congr rfl rfl rfl rfl rfl rfl

/-- LD Vx, K leaves a core that waits at the word just decoded (R198, R199). -/
theorem Inv.start_wait (h : Inv g s) (hf : s.fault = .running) {x : RegIdx} (hd : decodeWord s.fetchWord = some (.ldVxK x)) :
    Inv g { s with await := some x } where
  canonical := h.canonical
  glyphs := h.glyphs
  iLow := h.iLow
  waiting r hr := by
    obtain rfl := Option.some.inj hr
    exact word_of_decode_ldVxK hd
  underflow e := by simp [hf] at e
  overflow e := by simp [hf] at e

/-- RET on an empty stack halts the core at the RET (R219). -/
theorem Inv.halt_ret (h : Inv g s) (ha : s.await = none) (hd : decodeWord s.fetchWord = some .ret) (h0 : s.sp.val = 0) :
    Inv g { s with fault := .stackUnderflow } where
  canonical := h.canonical
  glyphs := h.glyphs
  iLow := h.iLow
  waiting r hr := by simp [ha] at hr
  underflow _ := ⟨h0, word_of_decode_ret hd, ha⟩
  overflow := nofun

/-- CALL on a full stack halts the core at the CALL (R219). -/
theorem Inv.halt_call (h : Inv g s) (ha : s.await = none) {nnn : Addr} (hd : decodeWord s.fetchWord = some (.call nnn))
    (h16 : s.sp.val = 16) : Inv g { s with fault := .stackOverflow } where
  canonical := h.canonical
  glyphs := h.glyphs
  iLow := h.iLow
  waiting r hr := by simp [ha] at hr
  underflow := nofun
  overflow _ := ⟨h16, opField_of_decode_call hd, ha⟩

/-- The instruction a core decodes at its PC leaves a state that meets the invariant, faulting or not. -/
theorem Inv.after_exec {i : Instr} {u : State} (h : Inv g s) (hf : s.fault = .running) (ha : s.await = none)
    (hd : decodeWord s.fetchWord = some i) (hu : exec i s = .next u) : Inv g u := by
  by_cases hr : u.fault = .running
  · by_cases hw : Part.await ∈ i.writes
    · obtain ⟨x, rfl⟩ := await_mem_writes.mp hw
      obtain rfl := Host.Outcome.next.inj hu
      exact h.start_wait hf hd
    · obtain ⟨a, bs, hm⟩ := exec_mem hu
      have kept : u.await = s.await := exec_keeps hu .await hw
      exact inv_of_idle (hm ▸ Memory.loadBytes_wf h.canonical a bs) (by rw [hm, Memory.loadBytes_glyph, h.glyph_eq])
        (exec_ireg_lt hu h.iLow) hr (kept.trans ha)
  · obtain ⟨rfl, h0, rfl⟩ | ⟨⟨nnn, rfl⟩, h16, rfl⟩ := exec_faulted hu hf hr
    · exact h.halt_ret ha hd h0
    · exact h.halt_call ha hd h16

/-- Every step keeps the invariant, case by case (R90). -/
theorem Inv.after_step (h : Inv g s) (e : step s = .next t) : Inv g t := by
  obtain ⟨-, rfl⟩ | ⟨hf, r, -, rfl⟩ | ⟨hf, ha, i, u, hd, hu, rfl⟩ | ⟨hf, ha, -, rfl⟩ := step_finish_cases e
  · exact h
  · exact h.endStep_keyWaitStep hf r
  · exact (h.after_exec hf ha hd hu).congr (by simp) (by simp) (by simp) (by simp) (by simp) (by simp)
  · exact inv_of_idle h.canonical h.glyph_eq h.iLow hf ha

/-! ## Reset, and the operations of the host -/

/-- Reset of the hardware with the glyph bytes `g`, after `k` draws of random bytes (R40). -/
def State.resetWith (g : Vector Byte 80) (k : Nat) : State :=
  { State.reset with mem := { glyph := g, cells := [] }, draws := k }

theorem State.reset_eq_resetWith : State.reset = State.resetWith Config.defaultGlyph 0 := rfl

theorem State.resetOf_eq_resetWith (s : State) : s.resetOf = State.resetWith s.mem.glyph s.draws := rfl

theorem inv_resetWith (g : Vector Byte 80) (k : Nat) : Inv g (State.resetWith g k) :=
  inv_of_idle (by simp [Memory.wf, State.resetWith]) rfl (by simp [State.resetWith, State.reset]) rfl rfl

theorem System.load_next {y z : System} {bytes : List Byte} (h : y.load bytes = .next z) :
    y.loadOpen = true ∧
      z = { core := { y.core with mem := y.core.mem.loadBytes Config.programBase bytes }, loadOpen := false } := by
  unfold System.load at h
  split_ifs at h with ho hw
  exact ⟨ho, (Host.Outcome.next.inj h).symm⟩

theorem System.step_next {y z : System} (h : y.step = .next z) :
    ∃ t, Sys2Proof.Machine.step y.core = .next t ∧ z = { core := t, loadOpen := false } := by
  unfold System.step at h
  split at h
  case h_1 t e => exact ⟨t, e, (Host.Outcome.next.inj h).symm⟩
  all_goals cases h

/-- Every operation of the host keeps the invariant of the system (R246). -/
theorem SystemInv.after_apply {y z : System} {a : Action} (h : SystemInv g y) (e : y.apply a = .next z) : SystemInv g z := by
  cases a with
  | reset =>
    obtain rfl := Host.Outcome.next.inj e
    refine ⟨?_, fun _ => ⟨rfl, rfl⟩⟩
    rw [State.resetOf_eq_resetWith, h.core.glyph_eq]
    exact inv_resetWith g _
  | load bytes =>
    obtain ⟨ho, rfl⟩ := System.load_next e
    obtain ⟨ha, hf⟩ := h.fresh ho
    exact ⟨inv_of_idle (Memory.loadBytes_wf h.core.canonical _ _) ((Memory.loadBytes_glyph _ _ _).trans h.core.glyph_eq)
      h.core.iLow hf ha, nofun⟩
  | step =>
    obtain ⟨t, ht, rfl⟩ := System.step_next e
    exact ⟨h.core.after_step ht, nofun⟩
  | keysWrite k b =>
    obtain rfl := Host.Outcome.next.inj e
    exact ⟨h.core.congr rfl rfl rfl rfl rfl rfl, h.fresh⟩
  | ackRedraw =>
    obtain rfl := Host.Outcome.next.inj e
    exact ⟨h.core.congr rfl rfl rfl rfl rfl rfl, h.fresh⟩

end invariant

theorem systemInv_start : SystemInv Config.defaultGlyph System.start :=
  ⟨inv_resetWith Config.defaultGlyph 0, fun _ => ⟨rfl, rfl⟩⟩

/-! ## The statements -/

/-- Settles O23, by the four cases of a step (R90). -/
theorem everyStepKeepsTheInvariant : Obligations.EveryStepKeepsTheInvariant :=
  fun _ _ _ h e => h.after_step e

/-- Settles O24, by the five operations of the host (R246). -/
theorem everyHostOperationKeepsTheSystemInvariant : Obligations.EveryHostOperationKeepsTheSystemInvariant :=
  fun _ _ _ _ h e => h.after_apply e

/-- Settles O22: reset leaves an empty list of cells, I at 0 and a core that runs and waits for no key. -/
theorem resetStatesMeetTheInvariant : Obligations.ResetStatesMeetTheInvariant :=
  ⟨inv_resetWith _ 0, fun s => inv_resetWith _ s.draws, systemInv_start⟩

/-- Settles O25, by induction on the operations that lead from reset to the system. -/
theorem reachableCoresMeetTheInvariant : Obligations.ReachableCoresMeetTheInvariant := by
  have invariant (y : System) (h : Reachable y) : SystemInv Config.defaultGlyph y := by
    induction h with
    | start => exact systemInv_start
    | apply a _ e ih => exact ih.after_apply e
  exact fun y h => (invariant y h).core

end Sys2Proof.Machine
end

section
/-! PROOFS. Who touches AWAIT, REDRAW and memory in a step (spec/10_state.md R36, R37, R42), from the four cases of a step and
the frame of the executed instruction. -/

namespace Sys2Proof.Machine

/-- A step that executes an instruction leaves the core waiting exactly if that was LD Vx, K (R198). -/
theorem await_after_exec {i : Instr} {s u : State} (hf : s.fault = .running) (ha : s.await = none)
    (hd : decodeWord s.fetchWord = some i) (hu : exec i s = .next u) (x : RegIdx) :
    u.finish.await = some x ↔ s.fault = .running ∧ decodeWord s.fetchWord = some (.ldVxK x) := by
  rw [State.finish_await, exec_await_iff hu ha, hd, Option.some.injEq, and_iff_right hf]

/-- Settles O14, by the four cases of a step. -/
theorem awaitIsSetByLdVxKAndClearedByAPressEdge : Obligations.AwaitIsSetByLdVxKAndClearedByAPressEdge := by
  refine ⟨fun s t h => ?_, fun s => Option.isSome_iff_ne_none⟩
  obtain ⟨hf, rfl⟩ | ⟨hf, r, hr, rfl⟩ | ⟨hf, ha, i, u, hd, hu, rfl⟩ | ⟨hf, ha, hd, rfl⟩ := step_finish_cases h
  · exact ⟨fun ha x => by simp [ha, hf], fun _ _ hf' => absurd hf' hf, fun _ _ hf' => absurd hf' hf, fun _ => rfl⟩
  · refine ⟨fun ha => ?_, fun q _ _ he => ?_, fun q hq _ he => ?_, fun hf' => absurd hf hf'⟩
    · simp [hr] at ha
    · exact State.keyWaitStep_await_of_edge r he
    · rw [State.keyWaitStep_of_no_edge r he]
      exact hq
  · exact ⟨fun _ x => await_after_exec hf ha hd hu x, fun q hq => by simp [ha] at hq, fun q hq => by simp [ha] at hq,
      fun hf' => absurd hf hf'⟩
  · exact ⟨fun _ x => by simp [ha, hd], fun q hq => by simp [ha] at hq, fun q hq => by simp [ha] at hq,
      fun hf' => absurd hf hf'⟩

/-- Settles O15: of the four cases of a step only an executed CLS or DRW writes REDRAW. -/
theorem redrawIsRaisedByDrawingAndClearedByTheHostOnly : Obligations.RedrawIsRaisedByDrawingAndClearedByTheHostOnly := by
  refine ⟨fun s t h => ?_, fun s => rfl⟩
  obtain ⟨hf, rfl⟩ | ⟨hf, r, hr, rfl⟩ | ⟨hf, ha, i, u, hd, hu, rfl⟩ | ⟨hf, ha, hd, rfl⟩ := step_finish_cases h
  · exact ⟨fun _ _ _ hf' => absurd hf' hf, fun hf' => absurd hf' hf, fun _ _ => rfl⟩
  · exact ⟨fun _ _ _ _ ha => by simp [hr] at ha, fun _ ha => by simp [hr] at ha, fun _ _ => s.keyWaitStep_redraw r⟩
  · simp only [hf, ha, hd, true_and, true_implies, Option.some.injEq, State.finish_redraw]
    refine ⟨fun x y n e => ?_, fun e => ?_, fun hdrw hcls => ?_⟩
    · subst e
      obtain rfl := Host.Outcome.next.inj hu
      rfl
    · subst e
      obtain rfl := Host.Outcome.next.inj hu
      rfl
    · refine exec_keeps hu .redraw fun hw => ?_
      obtain e | ⟨x, y, n, e⟩ := redraw_mem_writes.mp hw
      · exact hcls e
      · exact hdrw x y n e
  · exact ⟨fun _ _ _ _ _ e => by simp [hd] at e, fun _ _ e => by simp [hd] at e, fun _ _ => rfl⟩

/-- Settles O16: an executed instruction stores bytes, which the glyph table drops, and only LD B and LD [I] store any. -/
theorem onlyTheStoresWriteMemoryAndNeverTheGlyphTable : Obligations.OnlyTheStoresWriteMemoryAndNeverTheGlyphTable := by
  intro s t h
  have keeps (e : t.mem = s.mem) (a : Nat) : t.memRead a = s.memRead a := congrArg (Memory.read · a) e
  obtain ⟨-, rfl⟩ | ⟨-, r, -, rfl⟩ | ⟨hf, ha, i, u, hd, hu, rfl⟩ | ⟨-, -, -, rfl⟩ := step_finish_cases h
  · exact ⟨fun a _ => rfl, fun _ a => rfl⟩
  · have e := s.keyWaitStep_mem r
    exact ⟨fun a _ => keeps e a, fun _ a => keeps e a⟩
  · refine ⟨fun a hg => ?_, fun hn a => ?_⟩
    · obtain ⟨b, bs, hm⟩ := exec_mem hu
      rw [State.memRead, State.finish_mem, hm]
      exact Memory.read_loadBytes_glyph _ _ _ _ (isGlyph_mod_eq_true.mpr hg)
    · refine keeps (u.finish_mem.trans (exec_mem_eq hu fun hw => ?_)) a
      obtain ⟨x, e⟩ := mem_mem_writes.mp hw
      exact hn x ⟨hf, ha, by rwa [hd, Option.some.injEq, Option.some.injEq]⟩
  · exact ⟨fun a _ => rfl, fun _ a => rfl⟩

end Sys2Proof.Machine
end

section
/-! PROOFS. How PC moves (spec/10_state.md R25, R26; spec/41_control_flow.md). -/

namespace Sys2Proof.Machine

/-- PC moved on by 2, as a number (R26). -/
theorem pc_add_two (w : Word) : (w + 2).toNat = (w.toNat + 2) % 65536 := by
  rw [BitVec.toNat_add]
  rfl

/-- A skip moves PC by 2 or by 4 (R115). -/
theorem State.skipIf_pc_toNat (s : State) (c : Bool) :
    (s.skipIf c).pc.toNat = (s.pc.toNat + 2) % 65536 ∨ (s.skipIf c).pc.toNat = (s.pc.toNat + 4) % 65536 := by
  rw [State.skipIf_pc, BitVec.toNat_add]
  cases c
  · exact .inl rfl
  · exact .inr rfl

/-- The target of JP V0 is a 12-bit number (R114). -/
theorem State.jumpV0Target_toNat (s : State) (nnn : Addr) :
    (s.jumpV0Target nnn).toNat = ((s.readV 0).toNat + nnn.toNat) % 4096 := by
  simp only [State.jumpV0Target, BitVec.toNat_ofNat, Config.memSize]
  omega

/-- Settles O17, instruction by instruction. -/
theorem pcMovesByTwoOrFourOrToATarget : Obligations.PcMovesByTwoOrFourOrToATarget := by
  intro i s t h
  cases i with
  | jp nnn =>
    obtain rfl := Host.Outcome.next.inj h
    exact addrWord_toNat nnn
  | call nnn =>
    dsimp only
    obtain ⟨hr, e⟩ | ⟨h16, e⟩ := execCall_cases nnn s <;> obtain rfl := Host.Outcome.next.inj (e.symm.trans h)
    · rw [if_neg hr.ne]
      exact addrWord_toNat nnn
    · rw [if_pos h16]
  | ret =>
    obtain ⟨hp, e⟩ | ⟨h0, e⟩ := execRet_cases s <;> obtain rfl := Host.Outcome.next.inj (e.symm.trans h)
    · refine ⟨fun h0 => absurd h0 hp.ne', fun j hj => ?_⟩
      simp [← hj]
    · exact ⟨fun _ => rfl, fun j hj => by omega⟩
  | jpV0 nnn =>
    obtain rfl := Host.Outcome.next.inj h
    exact s.jumpV0Target_toNat nnn
  | ldVxK x =>
    obtain rfl := Host.Outcome.next.inj h
    rfl
  | seImm x kk | sneImm x kk | seReg x y | sneReg x y | skp x | sknp x =>
    obtain rfl := Host.Outcome.next.inj h
    exact s.skipIf_pc_toNat _
  | ldB x | ldMemVx x =>
    obtain rfl := Host.Outcome.next.inj h
    rw [s.storeBytes_eq]
    exact pc_add_two s.pc
  | ldVxMem x =>
    obtain rfl := Host.Outcome.next.inj h
    rw [s.loadRegs_eq]
    exact pc_add_two s.pc
  | _ =>
    obtain rfl := Host.Outcome.next.inj h
    exact pc_add_two s.pc

/-- An instruction that does not set PC keeps it even. -/
theorem exec_pc_even {i : Instr} {s u : State} (hu : exec i s = .next u) (he : s.pc.toNat % 2 = 0)
    (hset : ∀ nnn, ¬ (i = .jp nnn ∨ i = .call nnn ∨ i = .jpV0 nnn)) (hret : i ≠ .ret) : u.pc.toNat % 2 = 0 := by
  have move := pcMovesByTwoOrFourOrToATarget i s u hu
  cases i with
  | jp nnn | call nnn | jpV0 nnn => exact absurd (by simp) (hset nnn)
  | ret => exact absurd rfl hret
  | ldVxK x => rwa [show u.pc = s.pc from move]
  | _ => dsimp only at move; omega

/-- Settles O18, by the four cases of a step: PC stays, moves by 2, or moves as O17 says. -/
theorem pcStaysEvenUnlessItIsSet : Obligations.PcStaysEvenUnlessItIsSet := by
  intro s t h he hset hret
  have two : (s.pc + 2).toNat % 2 = 0 := by
    rw [pc_add_two]
    omega
  obtain ⟨-, rfl⟩ | ⟨-, r, -, rfl⟩ | ⟨hf, ha, i, u, hd, hu, rfl⟩ | ⟨-, -, -, rfl⟩ := step_finish_cases h
  · exact he
  · obtain ⟨k, -, e⟩ | ⟨-, e⟩ := s.keyWaitStep_cases r <;> rw [State.endStep_pc, e]
    · exact two
    · exact he
  · rw [State.finish_pc]
    simp only [hf, ha, hd, true_and, Option.some.injEq] at hset hret
    exact exec_pc_even hu he hset hret
  · exact two

end Sys2Proof.Machine
end

section
/-! PROOFS. ST is an output only (spec/10_state.md R33, spec/45_timers_keys.md R190): a step commutes with any change of ST,
up to the ST it leaves. -/

namespace Sys2Proof.Machine

/-- The state with another value of ST. -/
def State.setSt (s : State) (b : Byte) : State := { s with st := b }

/-! ## The shared operations do not see ST -/

theorem State.setSt_storeBytes (s : State) (b : Byte) (a : Nat) (bs : List Byte) :
    (s.setSt b).storeBytes a bs = (s.storeBytes a bs).setSt b := by
  induction bs generalizing s a with
  | nil => rfl
  | cons c cs ih => exact ih (s.memWrite a c) (a + 1)

theorem State.setSt_loadRegs (s : State) (b : Byte) (a n : Nat) :
    (s.setSt b).loadRegs a n = (s.loadRegs a n).setSt b := by
  induction n with
  | zero => rfl
  | succ n ih =>
    rw [State.loadRegs, ih]
    rfl

theorem State.setSt_keyWaitStep (s : State) (b : Byte) (r : RegIdx) :
    (s.setSt b).keyWaitStep r = (s.keyWaitStep r).setSt b := by
  have edge : (s.setSt b).lowestEdge = s.lowestEdge := rfl
  unfold State.keyWaitStep
  rw [edge]
  cases s.lowestEdge <;> rfl

theorem State.setSt_finish (u : State) (b : Byte) : ∃ c, (u.setSt b).finish = u.finish.setSt c := by
  by_cases hu : u.fault = .running
  · refine ⟨countDown b, ?_⟩
    rw [State.finish, State.finish, if_pos hu]
    exact if_pos hu
  · refine ⟨b, ?_⟩
    rw [State.finish, State.finish, if_neg hu]
    exact if_neg hu

/-! ## Instructions and steps -/

/-- From another ST an instruction leads to the same state with another ST: the given one, or what LD ST, Vx wrote. -/
theorem exec_setSt {i : Instr} {s u : State} (b : Byte) (h : exec i s = .next u) :
    ∃ c, exec i (s.setSt b) = .next (u.setSt c) := by
  cases i with
  | call nnn =>
    refine ⟨b, ?_⟩
    obtain ⟨hr, e⟩ | ⟨h16, e⟩ := execCall_cases nnn s <;> obtain rfl := Host.Outcome.next.inj (e.symm.trans h)
    · rw [exec, execCall, State.push_room (s.setSt b) _ hr]
      rfl
    · rw [exec, execCall, State.push_full (s.setSt b) _ h16]
      rfl
  | ret =>
    refine ⟨b, ?_⟩
    obtain ⟨hp, e⟩ | ⟨h0, e⟩ := execRet_cases s <;> obtain rfl := Host.Outcome.next.inj (e.symm.trans h)
    · rw [exec, execRet, State.pop_some (s.setSt b) hp]
      rfl
    · rw [exec, execRet, State.pop_empty (s.setSt b) h0]
      rfl
  | ldStVx x =>
    obtain rfl := Host.Outcome.next.inj h
    exact ⟨s.readV x, rfl⟩
  | ldB x | ldMemVx x =>
    obtain rfl := Host.Outcome.next.inj h
    exact ⟨b, congrArg (fun t : State => Host.Outcome.next (t.advance 2)) (s.setSt_storeBytes b _ _)⟩
  | ldVxMem x =>
    obtain rfl := Host.Outcome.next.inj h
    exact ⟨b, congrArg (fun t : State => Host.Outcome.next (t.advance 2)) (s.setSt_loadRegs b _ _)⟩
  | _ =>
    obtain rfl := Host.Outcome.next.inj h
    exact ⟨b, rfl⟩

/-- Settles O19, by the four cases of a step. -/
theorem soundTimerInfluencesNothingElse : Obligations.SoundTimerInfluencesNothingElse := by
  intro s t v h
  show ∃ w, step (s.setSt v) = .next (t.setSt w)
  obtain ⟨hf, rfl⟩ | ⟨hf, r, hr, rfl⟩ | ⟨hf, ha, i, u, hd, hu, rfl⟩ | ⟨hf, ha, hd, rfl⟩ := step_finish_cases h
  · exact ⟨v, step_halted hf⟩
  · refine ⟨countDown v, ?_⟩
    rw [step_waiting (s := s.setSt v) hf hr, State.setSt_keyWaitStep]
    rfl
  · obtain ⟨c, hc⟩ := exec_setSt v hu
    obtain ⟨w, hw⟩ := u.setSt_finish c
    refine ⟨w, ?_⟩
    rw [step_decoded (s := s.setSt v) hf ha hd, hc, settle_next_finish, hw]
  · exact ⟨countDown v, step_unsupported (s := s.setSt v) hf ha hd⟩

end Sys2Proof.Machine
end

section
/-! PROOFS. Memory in canonical form is determined by what it reads as (spec/10_state.md R29, R30), and what reset leaves (R40). -/

namespace Sys2Proof.Machine

/-! ## Canonical memory -/

/-- Of a list with rising addresses, the byte found for an address is the one listed with it. -/
theorem findCell_eq_some {cells : List Host.Cell} (h : cells.Pairwise (fun c d => c.1 < d.1)) (a : Nat) (u : Byte) :
    findCell cells a = some u ↔ (a, u) ∈ cells := by
  induction cells with
  | nil => simp [findCell]
  | cons c rest ih =>
    obtain ⟨hc, hr⟩ := List.pairwise_cons.mp h
    rw [findCell, List.mem_cons]
    split_ifs with e
    · have notLater : (a, u) ∉ rest := fun hm => (hc _ hm).ne e
      simp [notLater, Prod.ext_iff, e, eq_comm]
    · rw [ih hr]
      exact (or_iff_right fun e' => e (by rw [← e'])).symm

/-- A cell is listed exactly when it lies outside the glyph table and reads as its byte, which is not 0. -/
theorem Memory.mem_cells_iff {m : Memory} (h : m.wf) (a : Nat) (u : Byte) :
    (a, u) ∈ m.cells ↔ a < 4096 ∧ isGlyph a = false ∧ u ≠ 0 ∧ m.read a = u := by
  obtain ⟨rising, listed⟩ := h
  have read (ha : a < 4096) (hg : isGlyph a = false) : m.read a = (findCell m.cells a).getD 0 := by
    have e : a % Config.memSize = a := Nat.mod_eq_of_lt ha
    rw [Memory.read_plain m (by rwa [e]), e]
  constructor
  · intro hm
    obtain ⟨ha, hg, hu⟩ := listed _ hm
    rw [Memory.unlisted_plain m hg] at hu
    refine ⟨ha, hg, hu, ?_⟩
    rw [read ha hg, (findCell_eq_some rising a u).mpr hm, Option.getD_some]
  · rintro ⟨ha, hg, hu, hr⟩
    rw [read ha hg] at hr
    rw [← findCell_eq_some rising]
    cases hc : findCell m.cells a with
    | none => exact absurd (by simpa [hc] using hr.symm) hu
    | some w => simpa [hc] using hr

/-- Settles O26: the glyph bytes are read at their addresses, and the lists of cells are sorted and hold the same entries. -/
theorem canonicalMemoriesThatReadAlikeAreEqual : Obligations.CanonicalMemoriesThatReadAlikeAreEqual := by
  intro m n hm hn alike
  have glyph : m.glyph = n.glyph := Vector.ext fun i (hi : i < 80) => by
    have h := alike (0x050 + i) (by omega)
    rwa [m.read_glyphCell ⟨i, hi⟩, n.read_glyphCell ⟨i, hi⟩] at h
  have cells : m.cells = n.cells := by
    have : Std.Irrefl (fun c d : Host.Cell => c.1 < d.1) := ⟨fun c => lt_irrefl c.1⟩
    have : Std.Antisymm (fun c d : Host.Cell => c.1 < d.1) := ⟨fun c d hcd hdc => absurd hdc hcd.asymm⟩
    refine hm.1.eq_of_mem_iff hn.1 fun ⟨a, u⟩ => ?_
    rw [Memory.mem_cells_iff hm, Memory.mem_cells_iff hn]
    exact and_congr_right fun ha => by rw [alike a ha]
  cases m
  cases n
  congr

/-! ## Reset -/

theorem State.resetWith_memRead (g : Vector Byte 80) (k a : Nat) (ha : ¬ InGlyphTable a) :
    (State.resetWith g k).memRead a = 0 :=
  Memory.read_plain _ (isGlyph_mod_eq_false.mpr ha)

/-- Settles O27: power-on and Reset both leave `State.resetWith`, which holds the values of the table. -/
theorem resetLeavesTheValuesOfTheResetTable : Obligations.ResetLeavesTheValuesOfTheResetTable := by
  refine ⟨fun t ht => ?_, fun s => rfl⟩
  obtain ⟨g, k, rfl⟩ : ∃ g k, t = State.resetWith g k := by
    obtain rfl | ⟨s, rfl⟩ := ht
    · exact ⟨_, _, State.reset_eq_resetWith⟩
    · exact ⟨_, _, s.resetOf_eq_resetWith⟩
  refine ⟨rfl, Memory.read_glyphCell _, fun a _ ha => State.resetWith_memRead g k a ha, fun c => ?_, fun r => ?_, rfl, rfl,
    fun j => ?_, rfl, rfl, rfl, rfl, rfl, rfl, rfl⟩
  · exact BitVec.getLsbD_zero
  · exact Vector.getElem_replicate _
  · exact Vector.getElem_replicate _

end Sys2Proof.Machine
end

section
/-! PROOFS. A byte stored by LD [I], Vx is seen by the next fetch (spec/20_memory.md R63). -/

namespace Sys2Proof.Machine

/-- Of the registers `Fx55` stores, V[k] is then read at I + k, unless the glyph table dropped it (R57, R159). -/
theorem State.memRead_storeRegs (s : State) {x : RegIdx} {k : Nat} (hk : k ≤ x.toNat) (hg : ¬ InGlyphTable (s.iAddr k)) :
    (s.storeBytes (s.iAddr 0) (s.regsUpTo x)).memRead (s.iAddr k) = s.readV (BitVec.ofNat 4 k) := by
  have hx := x.isLt
  have inside : k < (s.regsUpTo x).length := by
    rw [State.regsUpTo_length]
    omega
  have fits : (s.regsUpTo x).length ≤ Config.memSize := by
    rw [State.regsUpTo_length, Config.memSize]
    omega
  rw [← s.regsUpTo_getElem x k inside]
  exact s.memRead_storeBytes_inside (s.iAddr 0) k _ inside fits hg

/-- The word fetched is the one at any address PC is congruent to modulo 4096 (R53, R92). -/
theorem State.fetchWord_of_pc_mod {s : State} {a : Nat} (h : s.pc.toNat % 4096 = a % 4096) :
    s.fetchWord = wordOf (s.memRead a) (s.memRead (a + 1)) := by
  have next : (s.pc.toNat + 1) % 4096 = (a + 1) % 4096 := Nat.ModEq.add_right 1 h
  rw [State.fetchWord, s.memRead_congr h, s.memRead_congr next]

/-- Settles O48: the store leaves PC + 2, which is I modulo 4096, so the two bytes the fetch reads are V[0] and V[1]. -/
theorem aStoreIsSeenByTheNextFetch : Obligations.AStoreIsSeenByTheNextFetch := by
  intro x s hx hi hg0 hg1
  refine ⟨_, rfl, ?_⟩
  have pc := pcMovesByTwoOrFourOrToATarget (.ldMemVx x) s _ rfl
  rw [State.fetchWord_of_pc_mod (a := s.ireg.toNat) (by dsimp only at pc; omega)]
  exact congrArg₂ wordOf (s.memRead_storeRegs (Nat.zero_le _) hg0) (s.memRead_storeRegs hx hg1)

end Sys2Proof.Machine
end

section
/-! PROOFS. The round trip of the encoding (spec/30_encoding.md R71, R72, R76): the word of an instruction decodes to it, and
with `encode_of_decodeWord` the other way round. -/

namespace Sys2Proof

/-- The word of an instruction decodes to that instruction: the formats give back the top nibble and the fixed low nibble or
byte the decoder looks at, and then every operand field. -/
theorem decodeWord_encode (i : Instr) : decodeWord (encode i) = some i := by
  cases i with
  | cls | ret => rfl
  | jp nnn | call nnn | ldI nnn | jpV0 nnn => simp [encode, decodeWord]
  | seImm x kk | sneImm x kk | ldImm x kk | addImm x kk | rnd x kk => simp [encode, decodeWord]
  | seReg x y | sneReg x y | drw x y n => simp [encode, decodeWord]
  | ldReg x y | orReg x y | andReg x y | xorReg x y | addReg x y | subReg x y | shr x y | subnReg x y | shl x y =>
    simp [encode, decodeWord, decodeEight]
  | skp x | sknp x => simp [encode, decodeWord, decodeE]
  | ldVxDt x | ldVxK x | ldDtVx x | ldStVx x | addI x | ldF x | ldB x | ldMemVx x | ldVxMem x =>
    simp [encode, decodeWord, decodeF]

/-- Settles O1: the two bytes spell the instruction's word, which decodes to it. -/
theorem decodeOfEncodeIsTheInstruction : Obligations.DecodeOfEncodeIsTheInstruction := by
  intro i rest
  change decode (highByte (encode i) :: lowByte (encode i) :: rest) = .ok (i, rest)
  rw [decode_two, wordOf_bytes, decodeWord_encode]

/-- Settles O2, by the cases of the decoder. -/
theorem encodeOfDecodeIsTheWord : Obligations.EncodeOfDecodeIsTheWord :=
  fun _ _ => encode_of_decodeWord

/-- Settles O4: the words are encodings, but for 00E1, which is neither word of top nibble 0. -/
theorem wordsOfTheSpecDecodeAsItSays : Obligations.WordsOfTheSpecDecodeAsItSays :=
  ⟨decodeWord_encode (.call 0x20A#12), decodeWord_encode (.shr 1#4 2#4), decodeWord_encode (.drw 0#4 1#4 2#4),
    decodeWord_encode (.ldVxK 2#4), decodeWord_encode (.ldMemVx 2#4), rfl⟩

end Sys2Proof
end

section
/-! PROOFS. The decoder against the opcode map (spec/30_encoding.md R75, R76): the rows are disjoint, a decoded word fits its
instruction's row, and a word that fits a row decodes. -/

namespace Sys2Proof

/-! ## Words that fit a row -/

theorem OpRow.fits_iff {r : OpRow} {w : Word} : r.fits w = true ↔ w &&& r.mask = r.pattern := beq_iff_eq

/-- Two rows that fit one word agree on the bits that both of them fix. -/
theorem OpRow.agree_of_fits {r q : OpRow} {w : Word} (hr : r.fits w = true) (hq : q.fits w = true) :
    r.pattern &&& q.mask = q.pattern &&& r.mask := by
  rw [← OpRow.fits_iff.mp hr, ← OpRow.fits_iff.mp hq, BitVec.and_assoc, BitVec.and_assoc, BitVec.and_comm r.mask]

/-- Two words that fit one row agree on every field the row fixes. -/
theorem OpRow.field_eq_of_fits {r : OpRow} {v w : Word} (hv : r.fits v = true) (hw : r.fits w = true) {start len : Nat}
    (hm : r.mask.extractLsb' start len = BitVec.allOnes len) : w.extractLsb' start len = v.extractLsb' start len := by
  have fixed (u : Word) (hu : r.fits u = true) : u.extractLsb' start len = r.pattern.extractLsb' start len := by
    rw [← OpRow.fits_iff.mp hu, BitVec.extractLsb'_and, hm, BitVec.and_allOnes]
  rw [fixed v hv, fixed w hw]

/-! ## The rows are disjoint -/

/-- Two rows of the opcode map that agree on the bits both of them fix are one row. -/
theorem row_eq_of_agree : ∀ r ∈ opTable, ∀ q ∈ opTable, r.pattern &&& q.mask = q.pattern &&& r.mask → r = q := by
  decide

theorem row_eq_of_fits {w : Word} {r q : OpRow} (hr : r ∈ opTable) (hq : q ∈ opTable) (fr : r.fits w = true)
    (fq : q.fits w = true) : r = q :=
  row_eq_of_agree r hr q hq (OpRow.agree_of_fits fr fq)

/-! ## A decoded word fits its instruction's row -/

/-- The word of an instruction lies in the instruction's row, whichever instruction it is. -/
theorem encode_inRow (i : Instr) : Laws.InRow.Statement i := match i with
  | .cls => Laws.InRow.cls
  | .ret => Laws.InRow.ret
  | .jp nnn => Laws.InRow.jp nnn
  | .call nnn => Laws.InRow.call nnn
  | .seImm x kk => Laws.InRow.seImm x kk
  | .sneImm x kk => Laws.InRow.sneImm x kk
  | .seReg x y => Laws.InRow.seReg x y
  | .ldImm x kk => Laws.InRow.ldImm x kk
  | .addImm x kk => Laws.InRow.addImm x kk
  | .ldReg x y => Laws.InRow.ldReg x y
  | .orReg x y => Laws.InRow.orReg x y
  | .andReg x y => Laws.InRow.andReg x y
  | .xorReg x y => Laws.InRow.xorReg x y
  | .addReg x y => Laws.InRow.addReg x y
  | .subReg x y => Laws.InRow.subReg x y
  | .shr x y => Laws.InRow.shr x y
  | .subnReg x y => Laws.InRow.subnReg x y
  | .shl x y => Laws.InRow.shl x y
  | .sneReg x y => Laws.InRow.sneReg x y
  | .ldI nnn => Laws.InRow.ldI nnn
  | .jpV0 nnn => Laws.InRow.jpV0 nnn
  | .rnd x kk => Laws.InRow.rnd x kk
  | .drw x y n => Laws.InRow.drw x y n
  | .skp x => Laws.InRow.skp x
  | .sknp x => Laws.InRow.sknp x
  | .ldVxDt x => Laws.InRow.ldVxDt x
  | .ldVxK x => Laws.InRow.ldVxK x
  | .ldDtVx x => Laws.InRow.ldDtVx x
  | .ldStVx x => Laws.InRow.ldStVx x
  | .addI x => Laws.InRow.addI x
  | .ldF x => Laws.InRow.ldF x
  | .ldB x => Laws.InRow.ldB x
  | .ldMemVx x => Laws.InRow.ldMemVx x
  | .ldVxMem x => Laws.InRow.ldVxMem x

theorem row_of_decodeWord {w : Word} {i : Instr} (h : decodeWord w = some i) : i.row ∈ opTable ∧ i.row.fits w = true :=
  encode_of_decodeWord h ▸ encode_inRow i

/-! ## A word that fits a row decodes -/

/-- Every row fixes the top nibble. -/
theorem opField_mask_of_mem : ∀ r ∈ opTable, r.mask.extractLsb' 12 4 = BitVec.allOnes 4 := by
  decide

theorem opField_eq_of_fits {i : Instr} {w : Word} (h : i.row.fits w = true) : opField w = opField (encode i) :=
  OpRow.field_eq_of_fits (encode_inRow i).2 h (opField_mask_of_mem _ (encode_inRow i).1)

/-- The mask F00F fixes the low nibble. -/
theorem nField_eq_of_fits {i : Instr} {w : Word} (hm : i.row.mask = 0xF00F#16) (h : i.row.fits w = true) :
    nField w = nField (encode i) :=
  OpRow.field_eq_of_fits (encode_inRow i).2 h (by rw [hm]; rfl)

/-- The mask F0FF fixes the low byte. -/
theorem kkField_eq_of_fits {i : Instr} {w : Word} (hm : i.row.mask = 0xF0FF#16) (h : i.row.fits w = true) :
    kkField w = kkField (encode i) :=
  OpRow.field_eq_of_fits (encode_inRow i).2 h (by rw [hm]; rfl)

/-- The mask FFFF fixes the word. -/
theorem eq_encode_of_fits {i : Instr} {w : Word} (hm : i.row.mask = 0xFFFF#16) (h : i.row.fits w = true) :
    w = encode i := by
  have whole := OpRow.field_eq_of_fits (start := 0) (len := 16) (encode_inRow i).2 h (by rw [hm]; rfl)
  rwa [BitVec.extractLsb'_eq_self, BitVec.extractLsb'_eq_self] at whole

/-- The decoder tests no bit that the row leaves free, by the mask of the row. -/
theorem decodeWord_isSome_of_fits {i : Instr} {w : Word} (h : i.row.fits w = true) : (decodeWord w).isSome = true := by
  have op := opField_eq_of_fits h
  cases i with
  | cls | ret => rw [eq_encode_of_fits rfl h, decodeWord_encode]; rfl
  | jp nnn | call nnn | ldI nnn | jpV0 nnn => simp [decodeWord, op, encode]
  | seImm x kk | sneImm x kk | ldImm x kk | addImm x kk | rnd x kk | drw x y n => simp [decodeWord, op, encode]
  | seReg x y | sneReg x y => simp [decodeWord, op, nField_eq_of_fits rfl h, encode]
  | ldReg x y | orReg x y | andReg x y | xorReg x y | addReg x y | subReg x y | shr x y | subnReg x y | shl x y =>
    simp [decodeWord, decodeEight, op, nField_eq_of_fits rfl h, encode]
  | skp x | sknp x => simp [decodeWord, decodeE, op, kkField_eq_of_fits rfl h, encode]
  | ldVxDt x | ldVxK x | ldDtVx x | ldStVx x | addI x | ldF x | ldB x | ldMemVx x | ldVxMem x =>
    simp [decodeWord, decodeF, op, kkField_eq_of_fits rfl h, encode]

/-- Settles O3: two rows that fit one word agree where both fix a bit and so are one row; the instruction of a decoded
word encodes to it and so fits its own row; and a word that fits a row decodes, to an instruction of that row since no
other row fits. -/
theorem decodeFollowsTheOpcodeMap : Obligations.DecodeFollowsTheOpcodeMap := by
  refine ⟨fun w r hr q hq => row_eq_of_fits hr hq, fun w i => row_of_decodeWord, fun w r hr hw => ?_⟩
  obtain ⟨sample, -, rfl⟩ := List.mem_map.mp hr
  obtain ⟨i, hi⟩ := Option.isSome_iff_exists.mp (decodeWord_isSome_of_fits hw)
  obtain ⟨mem, fits⟩ := row_of_decodeWord hi
  exact ⟨i, hi, row_eq_of_fits mem hr fits hw⟩

end Sys2Proof
end

section
/-! PROOFS. The unsupported words (spec/30_encoding.md R79) and the step on one of them (spec/40_step_cycle.md R96,
spec/60_exceptions.md R214). -/

namespace Sys2Proof

/-! ## Where the dispatches within a top nibble find nothing -/

theorem decodeZero_eq_none {w : Word} : decodeZero w = none ↔ w ≠ 0x00E0#16 ∧ w ≠ 0x00EE#16 := by
  simp [decodeZero, ite_eq_iff]

/-- The low nibbles under top nibble 8 that are no instruction are what the nine instructions leave of the sixteen. -/
theorem decodeEight_eq_none {w : Word} :
    decodeEight w = none ↔ nField w ∈ [0x8#4, 0x9#4, 0xA#4, 0xB#4, 0xC#4, 0xD#4, 0xF#4] := by
  have rest (n : Nibble) : n ∉ [0x0#4, 0x1#4, 0x2#4, 0x3#4, 0x4#4, 0x5#4, 0x6#4, 0x7#4, 0xE#4] ↔
      n ∈ [0x8#4, 0x9#4, 0xA#4, 0xB#4, 0xC#4, 0xD#4, 0xF#4] := by
    revert n
    decide
  rw [← rest]
  simp [decodeEight, ite_eq_iff]

theorem decodeE_eq_none {w : Word} : decodeE w = none ↔ kkField w ∉ [0x9E#8, 0xA1#8] := by
  simp [decodeE, ite_eq_iff]

theorem decodeF_eq_none {w : Word} : decodeF w = none ↔
    kkField w ∉ [0x07#8, 0x0A#8, 0x15#8, 0x18#8, 0x1E#8, 0x29#8, 0x33#8, 0x55#8, 0x65#8] := by
  simp [decodeF, ite_eq_iff]

/-- The words that do not decode, by top nibble: the table of R79. -/
theorem decodeWord_eq_none_iff (w : Word) : decodeWord w = none ↔
    (opField w = 0x0#4 ∧ w ≠ 0x00E0#16 ∧ w ≠ 0x00EE#16) ∨
    (opField w = 0x5#4 ∧ nField w ≠ 0x0#4) ∨
    (opField w = 0x8#4 ∧ nField w ∈ [0x8#4, 0x9#4, 0xA#4, 0xB#4, 0xC#4, 0xD#4, 0xF#4]) ∨
    (opField w = 0x9#4 ∧ nField w ≠ 0x0#4) ∨
    (opField w = 0xE#4 ∧ kkField w ∉ [0x9E#8, 0xA1#8]) ∨
    (opField w = 0xF#4 ∧
      kkField w ∉ [0x07#8, 0x0A#8, 0x15#8, 0x18#8, 0x1E#8, 0x29#8, 0x33#8, 0x55#8, 0x65#8]) := by
  rw [← decodeZero_eq_none, ← decodeEight_eq_none, ← decodeE_eq_none, ← decodeF_eq_none]
  rcases nibble_cases (opField w) with op | op | op | op | op | op | op | op | op | op | op | op | op | op | op | op <;>
    simp [decodeWord, op]

namespace Machine

/-! ## The step on an unsupported word -/

/-- The report of a step on an unsupported word: the word and its PC (R214). -/
theorem State.report_unsupported {s : State} (hf : s.fault = .running) (ha : s.await = none)
    (hd : decodeWord s.fetchWord = none) : s.report = some (s.fetchWord, s.pc) := by
  simp [State.report, hf, ha, hd]

/-- The no-operation leaves everything but PC, the timers and KPREV (R96). -/
theorem State.unsupportedStep_keeps (s : State) : KeepsAllBut s s.unsupportedStep [.dt, .st, .kprev] :=
  keepsAllBut_overlay s.unsupportedStep s [.dt, .st, .kprev]

/-- Settles O11: the table by the sixteen top nibbles, and the step by what `State.unsupportedStep` is. -/
theorem unsupportedWordsAreNopsWithAReport : Obligations.UnsupportedWordsAreNopsWithAReport := by
  refine ⟨decodeWord_eq_none_iff, fun s hf ha hd => ?_⟩
  exact ⟨State.report_unsupported hf ha hd, s.unsupportedStep, step_unsupported hf ha hd, pc_add_two s.pc,
    countDown_toNat s.dt, countDown_toNat s.st, rfl, s.unsupportedStep_keeps⟩

end Machine

end Sys2Proof
end

section
/-! PROOFS. What a step fetches (spec/40_step_cycle.md R92), the halted step (R91), and what a step does with the instruction it
decodes (R90, R93), the jump to itself included (R101). -/

namespace Sys2Proof.Machine

/-! ## The fetch -/

/-- Two bytes as a number, the first the high byte (R52). -/
theorem wordOf_toNat (hi lo : Byte) : (wordOf hi lo).toNat = 256 * hi.toNat + lo.toNat := by
  rw [wordOf, BitVec.toNat_append, ← Nat.shiftLeft_add_eq_or_of_lt lo.isLt, Nat.shiftLeft_eq]
  omega

/-- Settles O6: the fetch spells its word from the two bytes, and each read reduces its own address. -/
theorem fetchReadsTwoBytesHighByteFirst : Obligations.FetchReadsTwoBytesHighByteFirst := by
  intro s
  rw [State.fetchWord, wordOf_toNat, ← s.memRead_mod s.pc.toNat, ← s.memRead_mod (s.pc.toNat + 1)]

/-! ## Halted, and running an instruction -/

/-- A halted core fetches nothing and so has nothing to report (R91, R214). -/
theorem State.report_halted {s : State} (hf : s.fault ≠ .running) : s.report = none :=
  if_neg fun h => hf h.1

/-- Settles O7. -/
theorem haltedStepChangesNothing : Obligations.HaltedStepChangesNothing :=
  fun _ hf => ⟨step_halted hf, State.report_halted hf⟩

/-- The instruction two bytes decode to is the one of the word they spell (R93). -/
theorem decodeWord_of_decode_two {hi lo : Byte} {i : Instr} {rest : List Byte}
    (h : decode [hi, lo] = .ok (i, rest)) : decodeWord (wordOf hi lo) = some i := by
  rw [decode_two] at h
  cases hd : decodeWord (wordOf hi lo) with
  | some j =>
    rw [hd] at h
    obtain ⟨rfl, -⟩ := Prod.mk.inj (Except.ok.inj h)
    rfl
  | none => simp [hd] at h

/-- Settles O5: the instruction answers a next state, and `settle` ends the step on it. -/
theorem stepRunsTheDecodedInstruction : Obligations.StepRunsTheDecodedInstruction := by
  intro s i hf ha hd
  obtain ⟨u, hu⟩ := exec_answers_next i s
  refine ⟨u, hu, ?_⟩
  rw [step_decoded hf ha (decodeWord_of_decode_two hd), hu, settle_next, State.endStep]

/-! ## The jump to itself -/

/-- A jump to the PC it stands at leaves the state as it is (R101, R111). -/
theorem exec_jp_self {nnn : Addr} {s : State} (h : s.pc.toNat = nnn.toNat) : exec (.jp nnn) s = .next s := by
  have target : addrWord nnn = s.pc := BitVec.eq_of_toNat_eq ((addrWord_toNat nnn).trans h.symm)
  rw [exec, execJp, target]

/-- The end of a step touches the timers and KPREV only (R97, R98). -/
theorem State.endStep_keeps (s : State) : KeepsAllBut s s.endStep [.dt, .st, .kprev] :=
  keepsAllBut_overlay s.endStep s [.dt, .st, .kprev]

/-- Settles O21: the jump leaves the state as it is, so the end of the step is all that happens. -/
theorem jumpToItselfChangesNothingButTimers : Obligations.JumpToItselfChangesNothingButTimers := by
  intro s nnn hf ha hw hpc
  have hd : decodeWord s.fetchWord = some (.jp nnn) := hw ▸ decodeWord_encode (.jp nnn)
  refine ⟨s.endStep, ?_, s.endStep_pc, s.endStep_keeps⟩
  rw [step_decoded hf ha hd, exec_jp_self hpc, settle_next_running hf]

end Sys2Proof.Machine
end

section
/-! PROOFS. Which steps fault (spec/40_step_cycle.md R100, spec/60_exceptions.md R212, R215, R216), and how the other steps of
a running core end (spec/40_step_cycle.md R97, R98). -/

namespace Sys2Proof.Machine

/-! ## The steps that fault -/

/-- RET on an empty stack writes FAULT and nothing else (R113, R215). -/
theorem exec_ret_empty {s : State} (h : s.sp.val = 0) : exec .ret s = .next { s with fault := .stackUnderflow } := by
  rw [exec, execRet, State.pop_empty s h, State.raise]

/-- CALL on a full stack writes FAULT and nothing else (R112, R216). -/
theorem exec_call_full {s : State} (nnn : Addr) (h : s.sp.val = 16) :
    exec (.call nnn) s = .next { s with fault := .stackOverflow } := by
  rw [exec, execCall, State.push_full s _ h, State.raise]

/-- A fault ends the step at once (R100). -/
theorem State.finish_of_faulted {u : State} (h : u.fault ≠ .running) : u.finish = u := if_neg h

theorem State.finish_of_running {u : State} (h : u.fault = .running) : u.finish = u.endStep := if_pos h

/-- Settles O8: the two faulting instructions, and by the cases of a step no other way for FAULT to leave 0. -/
theorem stepFaultsOnlyAtAnEmptyRetOrAFullCall : Obligations.StepFaultsOnlyAtAnEmptyRetOrAFullCall := by
  refine ⟨fun s hf ha hd h0 => ⟨?_, rfl⟩, fun s nnn hf ha hd h16 => ⟨?_, rfl⟩, fun s t h hf ht => ?_⟩
  · rw [step_decoded hf ha hd, exec_ret_empty h0]
    exact settle_next_faulted nofun
  · rw [step_decoded hf ha hd, exec_call_full nnn h16]
    exact settle_next_faulted nofun
  · obtain ⟨hn, -⟩ | ⟨-, r, -, rfl⟩ | ⟨-, ha, i, u, hd, hu, rfl⟩ | ⟨-, -, -, rfl⟩ := step_finish_cases h
    · exact absurd hf hn
    · exact absurd ((s.keyWaitStep_fault r).trans hf) ht
    · rw [State.finish_fault] at ht
      refine ⟨ha, ?_⟩
      rw [State.finish_of_faulted ht, hd]
      obtain ⟨rfl, h0, e⟩ | ⟨⟨nnn, rfl⟩, h16, e⟩ := exec_faulted hu hf ht
      · exact .inl ⟨rfl, h0, e⟩
      · exact .inr ⟨⟨nnn, rfl⟩, h16, e⟩
    · exact absurd hf ht

/-! ## What the tick and the key bookkeeping find -/

@[simp] theorem State.keyWaitStep_keys (s : State) (r : RegIdx) : (s.keyWaitStep r).keys = s.keys := by
  obtain ⟨k, -, h⟩ | ⟨-, h⟩ := s.keyWaitStep_cases r <;> simp [h]
@[simp] theorem State.keyWaitStep_dt (s : State) (r : RegIdx) : (s.keyWaitStep r).dt = s.dt := by
  obtain ⟨k, -, h⟩ | ⟨-, h⟩ := s.keyWaitStep_cases r <;> simp [h]
@[simp] theorem State.keyWaitStep_st (s : State) (r : RegIdx) : (s.keyWaitStep r).st = s.st := by
  obtain ⟨k, -, h⟩ | ⟨-, h⟩ := s.keyWaitStep_cases r <;> simp [h]

theorem dt_mem_writes {i : Instr} : Part.dt ∈ i.writes ↔ ∃ x, i = .ldDtVx x := by
  cases i <;> simp [Instr.writes]

theorem st_mem_writes {i : Instr} : Part.st ∈ i.writes ↔ ∃ x, i = .ldStVx x := by
  cases i <;> simp [Instr.writes]

theorem keys_notMem_writes (i : Instr) : Part.keys ∉ i.writes := by
  cases i <;> simp [Instr.writes]

/-- KEYS belongs to the host: no instruction writes it (R34). -/
theorem exec_keys {i : Instr} {s u : State} (h : exec i s = .next u) : u.keys = s.keys :=
  exec_keeps h .keys (keys_notMem_writes i)

/-- DT after an instruction other than LD DT, Vx is what it was (R192). -/
theorem exec_dt {i : Instr} {s u : State} (h : exec i s = .next u) (hi : ∀ x, i ≠ .ldDtVx x) : u.dt = s.dt :=
  exec_keeps h .dt fun hw => (dt_mem_writes.mp hw).elim hi

theorem exec_ldDtVx_dt {x : RegIdx} {s u : State} (h : exec (.ldDtVx x) s = .next u) : u.dt = s.readV x :=
  Host.Outcome.next.inj h ▸ rfl

/-- ST after an instruction other than LD ST, Vx is what it was (R193). -/
theorem exec_st {i : Instr} {s u : State} (h : exec i s = .next u) (hi : ∀ x, i ≠ .ldStVx x) : u.st = s.st :=
  exec_keeps h .st fun hw => (st_mem_writes.mp hw).elim hi

theorem exec_ldStVx_st {x : RegIdx} {s u : State} (h : exec (.ldStVx x) s = .next u) : u.st = s.readV x :=
  Host.Outcome.next.inj h ▸ rfl

/-- Settles O10, by the cases of a step: each live one is `endStep` of a state with the old KEYS, and with the old timers
unless LD DT, Vx or LD ST, Vx wrote one. -/
theorem everyLiveStepEndsWithTickAndKeyLatch : Obligations.EveryLiveStepEndsWithTickAndKeyLatch := by
  intro s t h hf ht
  obtain ⟨hn, -⟩ | ⟨-, r, hr, rfl⟩ | ⟨-, ha, i, u, hd, hu, rfl⟩ | ⟨-, ha, hd, rfl⟩ := step_finish_cases h
  · exact absurd hf hn
  · simp [hr, countDown_toNat]
  · rw [State.finish_fault] at ht
    simp only [ha, hd, true_and, true_implies, Option.some.injEq, State.finish_of_running ht, State.endStep_kprev,
      State.endStep_keys, State.endStep_dt, State.endStep_st, countDown_toNat]
    refine ⟨exec_keys hu, exec_keys hu, fun x e => ?_, fun hi => ?_, fun x e => ?_, fun hi => ?_⟩
    · rw [exec_ldDtVx_dt (e ▸ hu)]
    · rw [exec_dt hu hi]
    · rw [exec_ldStVx_st (e ▸ hu)]
    · rw [exec_st hu hi]
  · simp [hd, countDown_toNat]

end Sys2Proof.Machine
end

section
/-! PROOFS. The control transfers instruction by instruction: the jumps (spec/41_control_flow.md R111, R114), CALL and RET
(R112, R113), and the skips (R115 to R119). -/

namespace Sys2Proof.Machine

/-! ## CALL and RET on a stack that allows them -/

/-- The state after a CALL with room: the return address pushed, PC at the target (R112). -/
def State.called (s : State) (nnn : Addr) (h : s.sp.val < 16) : State :=
  { s with stack := s.stack.set s.sp.val (s.pc + 2) h, sp := ⟨s.sp.val + 1, by omega⟩, pc := addrWord nnn }

theorem exec_call_room {s : State} (nnn : Addr) (h : s.sp.val < 16) : exec (.call nnn) s = .next (s.called nnn h) := by
  rw [exec, execCall, s.push_room _ h]
  rfl

theorem State.called_stack (s : State) (nnn : Addr) (h : s.sp.val < 16) (j : Fin 16) :
    (s.called nnn h).stack[j] = if j.val = s.sp.val then s.pc + 2 else s.stack[j] := by
  simp only [State.called, Fin.getElem_fin, Vector.getElem_set, eq_comm]

theorem State.called_keeps (s : State) (nnn : Addr) (h : s.sp.val < 16) : KeepsAllBut s (s.called nnn h) [.stack] :=
  keepsAllBut_overlay (s.called nnn h) s [.stack]

/-- The state after a RET that pops something: PC is the popped word, whose slot keeps its value (R113). -/
def State.returned (s : State) (h : 0 < s.sp.val) : State :=
  { s with
    sp := ⟨s.sp.val - 1, by omega⟩
    pc := s.stack[s.sp.val - 1]'(by omega) }

theorem exec_ret_nonempty {s : State} (h : 0 < s.sp.val) : exec .ret s = .next (s.returned h) := by
  rw [exec, execRet, s.pop_some h]
  rfl

theorem State.returned_pc {s : State} (h : 0 < s.sp.val) {j : Fin 16} (hj : j.val + 1 = s.sp.val) :
    (s.returned h).pc = s.stack[j] := by
  simp only [State.returned, ← hj, Nat.add_sub_cancel, Fin.getElem_fin]

theorem State.returned_keeps (s : State) (h : 0 < s.sp.val) : KeepsAllBut s (s.returned h) [.stack] :=
  keepsAllBut_overlay (s.returned h) s [.stack]

/-- Settles O32: with room the state is `State.called`, on a full stack the fault. -/
theorem callPushesTheReturnAddress : Obligations.CallPushesTheReturnAddress := by
  intro nnn s
  refine ⟨decodeWord_encode (.call nnn), fun h => ?_, exec_call_full nnn⟩
  refine ⟨s.called nnn h, exec_call_room nnn h, rfl, fun j => ?_, addrWord_toNat nnn, s.called_keeps nnn h⟩
  rw [s.called_stack, apply_ite BitVec.toNat, pc_add_two]

/-- Settles O33: with something to pop the state is `State.returned`, on an empty stack the fault. -/
theorem retPopsPc : Obligations.RetPopsPc := by
  refine ⟨decodeWord_encode .ret, fun s => ⟨fun h => ?_, exec_ret_empty⟩⟩
  exact ⟨s.returned h, exec_ret_nonempty h, Nat.sub_add_cancel h, fun _ => State.returned_pc h, fun _ => rfl,
    s.returned_keeps h⟩

/-- Settles O34, from O32 and O33: the slot RET pops is the one CALL wrote. -/
theorem retAfterCallResumesAfterTheCall : Obligations.RetAfterCallResumesAfterTheCall := by
  intro nnn s t u hroom hcall hsp hstack
  obtain ⟨-, pushes, -⟩ := callPushesTheReturnAddress nnn s
  obtain ⟨t', hcall', deeper, slots, -, -⟩ := pushes hroom
  obtain rfl := Host.Outcome.next.inj (hcall'.symm.trans hcall)
  have depth : u.sp.val = s.sp.val + 1 := hsp ▸ deeper
  obtain ⟨v, hret, shallower, popped, -, -⟩ := (retPopsPc.2 u).1 (by omega)
  refine ⟨v, hret, ?_, Fin.ext (by omega)⟩
  rw [popped ⟨s.sp.val, hroom⟩ depth.symm, hstack, slots, if_pos rfl]

/-! ## The jumps -/

/-- Settles O31. -/
theorem jpSetsPc : Obligations.JpSetsPc := fun nnn s =>
  ⟨decodeWord_encode (.jp nnn), { s with pc := addrWord nnn }, rfl, addrWord_toNat nnn,
    (addrWord_toNat nnn).trans_lt nnn.isLt, exec_keeps (i := .jp nnn) rfl⟩

/-- Settles O35. -/
theorem jpV0AddsV0Modulo4096 : Obligations.JpV0AddsV0Modulo4096 := fun nnn s =>
  ⟨decodeWord_encode (.jpV0 nnn), { s with pc := s.jumpV0Target nnn }, rfl, s.jumpV0Target_toNat nnn,
    exec_keeps (i := .jpV0 nnn) rfl⟩

/-! ## The skips -/

/-- What every skip does: PC moves by 4 or by 2 as the condition says, and nothing else changes (R115). -/
theorem exec_skip {i : Instr} {s : State} {c : Bool} {p : Prop} [Decidable p] (h : exec i s = .next (s.skipIf c))
    (hc : c = true ↔ p) :
    ∃ t, exec i s = .next t ∧ t.pc.toNat = (s.pc.toNat + if p then 4 else 2) % 65536 ∧ KeepsAllBut s t [] := by
  refine ⟨s.skipIf c, h, ?_, keepsAllBut_overlay (s.skipIf c) s []⟩
  rw [State.skipIf_pc, BitVec.toNat_add]
  by_cases hp : p
  · rw [if_pos (hc.mpr hp), if_pos hp]
    rfl
  · rw [if_neg (mt hc.mp hp), if_neg hp]
    rfl

/-- Settles O36. -/
theorem immediateSkipsCompareWithKk : Obligations.ImmediateSkipsCompareWithKk := fun x kk _ =>
  ⟨decodeWord_encode (.seImm x kk), decodeWord_encode (.sneImm x kk), exec_skip rfl beq_iff_eq, exec_skip rfl bne_iff_ne⟩

/-- Under top nibbles 5 and 9 only the low nibble 0 is an instruction (R79). -/
theorem decodeWord_formatR_eq_none {op : BitVec 4} (hop : op = 0x5#4 ∨ op = 0x9#4) (x y : RegIdx) {n : Nibble}
    (hn : n ≠ 0) : decodeWord (formatR op x y n) = none := by
  rw [decodeWord_eq_none_iff, opField_formatR, nField_formatR]
  obtain rfl | rfl := hop
  · exact .inr (.inl ⟨rfl, hn⟩)
  · exact .inr (.inr (.inr (.inl ⟨rfl, hn⟩)))

/-- Settles O37. -/
theorem registerSkipsCompareTwoRegisters : Obligations.RegisterSkipsCompareTwoRegisters := fun x y _ =>
  ⟨decodeWord_encode (.seReg x y), decodeWord_encode (.sneReg x y),
    fun _ hn => ⟨decodeWord_formatR_eq_none (.inl rfl) x y hn, decodeWord_formatR_eq_none (.inr rfl) x y hn⟩,
    exec_skip rfl beq_iff_eq, exec_skip rfl bne_iff_ne⟩

end Sys2Proof.Machine
end

section
/-! PROOFS. The loads, arithmetic, logic and RND of spec/42_load_alu.md: what a result without and with a flag leaves (R130 to
R141), and that RND alone consumes random bytes (R142, R143). -/

namespace Sys2Proof.Machine

/-! ## Who consumes random bytes -/

theorem draws_mem_writes {i : Instr} : Part.draws ∈ i.writes ↔ ∃ x kk, i = .rnd x kk := by
  cases i <;> simp [Instr.writes]

@[simp] theorem State.finish_draws (u : State) : u.finish.draws = u.draws := by
  rcases u.finish_cases with h | h <;> simp [h]

@[simp] theorem State.keyWaitStep_draws (s : State) (r : RegIdx) : (s.keyWaitStep r).draws = s.draws := by
  obtain ⟨k, -, h⟩ | ⟨-, h⟩ := s.keyWaitStep_cases r <;> simp [h]

theorem exec_rnd_draws {x : RegIdx} {kk : Byte} {s u : State} (h : exec (.rnd x kk) s = .next u) :
    u.draws = s.draws + 1 :=
  Host.Outcome.next.inj h ▸ rfl

/-- Settles O20: of the four cases of a step only an executed RND writes the counter. -/
theorem onlyRndConsumesRandomBytes : Obligations.OnlyRndConsumesRandomBytes := by
  intro s t h
  obtain ⟨hf, rfl⟩ | ⟨-, r, hr, rfl⟩ | ⟨hf, ha, i, u, hd, hu, rfl⟩ | ⟨-, -, hd, rfl⟩ := step_finish_cases h
  · exact ⟨fun _ _ hf' => absurd hf' hf, fun _ => rfl⟩
  · exact ⟨fun _ _ _ ha => by simp [hr] at ha, fun _ => s.keyWaitStep_draws r⟩
  · simp only [hf, ha, hd, true_and, true_implies, Option.some.injEq, State.finish_draws]
    refine ⟨fun x kk e => exec_rnd_draws (e ▸ hu), fun hn => exec_keeps hu .draws fun hw => ?_⟩
    obtain ⟨x, kk, e⟩ := draws_mem_writes.mp hw
    exact hn x kk e
  · exact ⟨fun _ _ _ _ e => by simp [hd] at e, fun _ => rfl⟩

/-! ## Results with a flag -/

/-- A flag as a number, by what the flag says (R21). -/
theorem flagByte_toNat {c : Bool} {p : Prop} [Decidable p] (h : c = true ↔ p) :
    (flagByte c).toNat = if p then 1 else 0 := by
  by_cases hp : p
  · rw [h.mpr hp, if_pos hp]
    rfl
  · rw [Bool.eq_false_iff.mpr (mt h.mp hp), if_neg hp]
    rfl

theorem shiftedOutRight_eq_true {a : Byte} : shiftedOutRight a = true ↔ a.toNat % 2 = 1 := by
  simp [shiftedOutRight, BitVec.getLsbD, Nat.testBit_zero]

theorem shiftedOutLeft_eq_true {a : Byte} : shiftedOutLeft a = true ↔ 128 ≤ a.toNat := by
  rw [shiftedOutLeft, ← BitVec.msb_eq_getLsbD_last a, BitVec.msb_eq_decide, decide_eq_true_eq]

/-- The bit a right shift loses is the remainder by 2 (R139). -/
theorem flagByte_shiftedOutRight_toNat (a : Byte) : (flagByte (shiftedOutRight a)).toNat = a.toNat % 2 := by
  rw [flagByte_toNat shiftedOutRight_eq_true]
  split_ifs <;> omega

/-- The bit a left shift loses is the quotient by 128 (R141). -/
theorem flagByte_shiftedOutLeft_toNat (a : Byte) : (flagByte (shiftedOutLeft a)).toNat = a.toNat / 128 := by
  have := a.isLt
  rw [flagByte_toNat shiftedOutLeft_eq_true]
  split_ifs <;> omega

/-- The difference of two bytes modulo 256, without a negative number (R138). -/
theorem byte_sub_toNat (a b : Byte) : (a - b).toNat = (a.toNat + 256 - b.toNat) % 256 := by
  have := b.isLt
  rw [BitVec.toNat_sub]
  omega

/-- What every instruction with a flag does: VF is the flag even if it is the destination, then the destination the result,
PC + 2, and nothing else changes (R22, R130). -/
theorem exec_resultThenFlag {i : Instr} {s : State} {x : RegIdx} {b : Byte} {c : Bool} {result flag : Nat}
    (h : exec i s = .next (s.resultThenFlag x b c)) (hb : b.toNat = result) (hc : (flagByte c).toNat = flag) :
    ∃ t, exec i s = .next t ∧
      (∀ r, (t.readV r).toNat = if r = 0xF#4 then flag else if r = x then result else (s.readV r).toNat) ∧
      t.pc.toNat = (s.pc.toNat + 2) % 65536 ∧ KeepsAllBut s t [.regs] := by
  refine ⟨_, h, fun r => ?_, pc_add_two s.pc, keepsAllBut_overlay (s.resultThenFlag x b c) s [.regs]⟩
  rw [s.readV_resultThenFlag, apply_ite BitVec.toNat, apply_ite BitVec.toNat, hb, hc, vf]

/-- Settles O40. -/
theorem addWritesSumThenCarry : Obligations.AddWritesSumThenCarry := fun x y _ =>
  ⟨decodeWord_encode (.addReg x y), exec_resultThenFlag rfl (BitVec.toNat_add _ _) (flagByte_toNat carryOut_eq_true)⟩

/-- Settles O41. -/
theorem subtractionsWriteDifferenceThenNoBorrow : Obligations.SubtractionsWriteDifferenceThenNoBorrow := fun x y _ =>
  ⟨decodeWord_encode (.subReg x y), decodeWord_encode (.subnReg x y),
    exec_resultThenFlag rfl (byte_sub_toNat _ _) (flagByte_toNat noBorrow_eq_true),
    exec_resultThenFlag rfl (byte_sub_toNat _ _) (flagByte_toNat noBorrow_eq_true)⟩

/-- Settles O42. -/
theorem shiftsWriteVxThenTheLostBit : Obligations.ShiftsWriteVxThenTheLostBit := by
  intro x y s
  have half (a : Byte) : (a >>> 1).toNat = a.toNat / 2 := by
    rw [BitVec.toNat_ushiftRight, Nat.shiftRight_eq_div_pow, pow_one]
  have double (a : Byte) : (a <<< 1).toNat = 2 * a.toNat % 256 := by
    rw [BitVec.toNat_shiftLeft, Nat.shiftLeft_eq, pow_one, Nat.mul_comm]
  exact ⟨decodeWord_encode (.shr x y), decodeWord_encode (.shl x y),
    exec_resultThenFlag rfl (half _) (flagByte_shiftedOutRight_toNat _),
    exec_resultThenFlag rfl (double _) (flagByte_shiftedOutLeft_toNat _)⟩

/-! ## Results without a flag -/

/-- What every instruction without a flag does: the destination takes the result, VF too only as a destination, PC + 2, and
nothing else changes (R130). -/
theorem exec_resultOnly {i : Instr} {s : State} {x : RegIdx} {b : Byte} (h : exec i s = .next (s.resultOnly x b)) :
    ∃ t, exec i s = .next t ∧ (∀ r, t.readV r = if r = x then b else s.readV r) ∧
      t.pc.toNat = (s.pc.toNat + 2) % 65536 ∧ KeepsAllBut s t [.regs] :=
  ⟨_, h, fun r => s.readV_resultOnly x r b, pc_add_two s.pc, keepsAllBut_overlay (s.resultOnly x b) s [.regs]⟩

/-- Settles O38. -/
theorem immediateLoadAndAddWriteVx : Obligations.ImmediateLoadAndAddWriteVx := by
  intro x kk s
  refine ⟨decodeWord_encode (.ldImm x kk), decodeWord_encode (.addImm x kk), exec_resultOnly rfl, ?_⟩
  obtain ⟨t, ht, hregs, hpc, hkept⟩ := exec_resultOnly (i := .addImm x kk) (s := s) rfl
  refine ⟨t, ht, fun r => ?_, hpc, hkept⟩
  rw [hregs, apply_ite BitVec.toNat, BitVec.toNat_add]

/-- Settles O39. -/
theorem moveAndLogicWriteVxOnly : Obligations.MoveAndLogicWriteVxOnly := fun x y _ =>
  ⟨decodeWord_encode (.ldReg x y), decodeWord_encode (.orReg x y), decodeWord_encode (.andReg x y),
    decodeWord_encode (.xorReg x y), exec_resultOnly rfl, exec_resultOnly rfl, exec_resultOnly rfl, exec_resultOnly rfl⟩

/-! ## RND -/

/-- RND on any byte: the destination takes the byte masked (R142). -/
theorem State.readV_rndWith (s : State) (b : Byte) (x : RegIdx) (kk : Byte) (r : RegIdx) :
    (s.rndWith b x kk).readV r = if r = x then b &&& kk else s.readV r :=
  s.readV_resultOnly x r (b &&& kk)

/-- Settles O43. -/
theorem rndWritesARandomByteAndKk : Obligations.RndWritesARandomByteAndKk := fun x kk s =>
  ⟨decodeWord_encode (.rnd x kk),
    ⟨s.rndWith (Config.rndIn s.draws) x kk, rfl, s.readV_rndWith _ x kk, pc_add_two s.pc, rfl,
      exec_keeps (i := .rnd x kk) rfl⟩,
    fun b => s.readV_rndWith b x kk⟩

end Sys2Proof.Machine
end

section
/-! PROOFS. The address register and memory: the writes of I (spec/43_index_memory.md R151 to R155), the stores at I (R157, R159)
and the load from I (R161). -/

namespace Sys2Proof.Machine

/-! ## The stores -/

/-- What every store leaves beside the bytes it stores: every other cell and the glyph table read as before, PC + 2, and
nothing else changes (R57, R150). -/
theorem State.storeBytes_advance_frame (s : State) (bs : List Byte) :
    (∀ a, (InGlyphTable a ∨ ∀ k < bs.length, a % 4096 ≠ s.iAddr k % 4096) →
      ((s.storeBytes (s.iAddr 0) bs).advance 2).memRead a = s.memRead a) ∧
    ((s.storeBytes (s.iAddr 0) bs).advance 2).pc.toNat = (s.pc.toNat + 2) % 65536 ∧
    KeepsAllBut s ((s.storeBytes (s.iAddr 0) bs).advance 2) [.mem] := by
  refine ⟨fun a => s.memRead_storeBytes_outside (s.iAddr 0) a bs, ?_, ?_⟩
  · rw [s.storeBytes_eq]
    exact pc_add_two s.pc
  · rw [s.storeBytes_eq]
    exact keepsAllBut_overlay ((s.storeBytes (s.iAddr 0) bs).advance 2) s [.mem]

@[simp] theorem digits_length (b : Byte) : (digits b).length = 3 := rfl

/-- The bytes LD B stores, as numbers (R157). -/
theorem digits_getElem_toNat (b : Byte) (k : Nat) (hk : k < (digits b).length) :
    (digits b)[k].toNat = if k = 0 then b.toNat / 100 else if k = 1 then b.toNat / 10 % 10 else b.toNat % 10 := by
  have byte {n : Nat} (hn : n < 256) : (BitVec.ofNat 8 n).toNat = n :=
    (BitVec.toNat_ofNat _ _).trans (Nat.mod_eq_of_lt hn)
  have hb := b.isLt
  match k, hk with
  | 0, _ => exact byte (by omega)
  | 1, _ => exact byte (by omega)
  | 2, _ => exact byte (by omega)

/-- Settles O45. -/
theorem ldBStoresThreeDigits : Obligations.LdBStoresThreeDigits := by
  intro x s
  refine ⟨decodeWord_encode (.ldB x), _, rfl, fun k hk hg => ?_, s.storeBytes_advance_frame (digits (s.readV x))⟩
  have stored := s.memRead_storeBytes_inside (s.iAddr 0) k (digits (s.readV x)) hk (by rw [digits_length]; decide) hg
  exact (congrArg BitVec.toNat stored).trans (digits_getElem_toNat (s.readV x) k hk)

/-- Settles O46. -/
theorem ldMemStoresV0ToVx : Obligations.LdMemStoresV0ToVx := by
  intro x s
  have frame := s.storeBytes_advance_frame (s.regsUpTo x)
  simp only [s.regsUpTo_length, Nat.lt_succ_iff] at frame
  refine ⟨decodeWord_encode (.ldMemVx x), _, rfl, fun k hk hg => ?_, frame⟩
  rw [State.advance_memRead, s.memRead_storeRegs hk hg, BitVec.ofNat_toNat, BitVec.setWidth_eq]

/-! ## The load -/

/-- Settles O47. -/
theorem ldVxMemLoadsV0ToVx : Obligations.LdVxMemLoadsV0ToVx := by
  intro x s
  refine ⟨decodeWord_encode (.ldVxMem x), _, rfl, fun r => ?_, ?_, exec_keeps (i := .ldVxMem x) rfl⟩
  · rw [s.memRead_mod, State.advance_readV, s.readV_loadRegs _ _ x.isLt, State.iAddr, Nat.add_zero]
    exact if_congr Nat.lt_succ_iff rfl rfl
  · rw [s.loadRegs_eq]
    exact pc_add_two s.pc

/-! ## The writes of I -/

/-- What every write of I does: I takes the word, PC + 2, and nothing else changes. -/
theorem exec_setI {i : Instr} {s : State} {w : Word} {n : Nat} (h : exec i s = .next ({ s with ireg := w }.advance 2))
    (hw : w.toNat = n) :
    ∃ t, exec i s = .next t ∧ t.ireg.toNat = n ∧ t.pc.toNat = (s.pc.toNat + 2) % 65536 ∧ KeepsAllBut s t [.ireg] :=
  ⟨_, h, hw, pc_add_two s.pc, keepsAllBut_overlay (({ s with ireg := w } : State).advance 2) s [.ireg]⟩

/-- The sum ADD I leaves is a 12-bit number (R153). -/
theorem State.addITarget_toNat (s : State) (x : RegIdx) :
    (s.addITarget x).toNat = (s.ireg.toNat + (s.readV x).toNat) % 4096 := by
  rw [State.addITarget, BitVec.toNat_ofNat, Config.memSize]
  omega

/-- The glyph address of a whole byte fits I (R155). -/
theorem State.glyphAddr_toNat (s : State) (x : RegIdx) : (s.glyphAddr x).toNat = 0x050 + 5 * (s.readV x).toNat := by
  have := (s.readV x).isLt
  rw [State.glyphAddr, BitVec.toNat_ofNat, Config.glyphBase]
  omega

/-- Settles O44. -/
theorem settingIWritesIOnly : Obligations.SettingIWritesIOnly := fun nnn x s =>
  ⟨decodeWord_encode (.ldI nnn), decodeWord_encode (.addI x), decodeWord_encode (.ldF x),
    exec_setI rfl (addrWord_toNat nnn), exec_setI rfl (s.addITarget_toNat x), exec_setI rfl (s.glyphAddr_toNat x)⟩

end Sys2Proof.Machine
end

section
/-! PROOFS. The display: CLS (spec/44_display.md R172), one DRW (R174, R175, R177) and the same DRW twice (R178, log 15). -/

namespace Sys2Proof.Machine

/-- Settles O49. -/
theorem clsClearsEveryCell : Obligations.ClsClearsEveryCell :=
  ⟨decodeWord_encode .cls, fun s =>
    ⟨_, rfl, fun _ => BitVec.getLsbD_zero, rfl, pc_add_two s.pc, exec_keeps (i := .cls) rfl⟩⟩

/-! ## One draw -/

/-- The state after `Dxyn` (R174). -/
def State.drew (s : State) (x y : RegIdx) (n : Nibble) : State :=
  ({ s with fb := (s.drawn x y n).1, redraw := true }.writeFlag (s.drawn x y n).2).advance 2

theorem exec_drw (x y : RegIdx) (n : Nibble) (s : State) : exec (.drw x y n) s = .next (s.drew x y n) := rfl

section draw

variable {s : State} {x y : RegIdx} {n : Nibble}

theorem State.drew_cell_of_lights {c : Nat} (h : Lights s x y n c) : (s.drew x y n).cell c = !s.cell c :=
  ((s.drawn_spec x y n).1 c).1 h

theorem State.drew_cell_of_not_lights {c : Nat} (h : ¬ Lights s x y n c) : (s.drew x y n).cell c = s.cell c :=
  ((s.drawn_spec x y n).1 c).2 h

/-- VF takes the collision, every other register stays. -/
theorem State.drew_readV (r : RegIdx) :
    (s.drew x y n).readV r = if r = 0xF#4 then flagByte (s.drawn x y n).2 else s.readV r :=
  State.readV_writeV _ vf r _

theorem State.drew_readV_other {r : RegIdx} (h : r ≠ 0xF#4) : (s.drew x y n).readV r = s.readV r := by
  rw [State.drew_readV, if_neg h]

theorem State.drew_vf : (s.drew x y n).readV 0xF#4 = flagByte (s.drawn x y n).2 := by
  rw [State.drew_readV, if_pos rfl]

theorem State.drew_vf_of_collision (h : ∃ c, Lights s x y n c ∧ s.cell c = true) : (s.drew x y n).readV 0xF#4 = 1 := by
  rw [State.drew_vf, (s.drawn_spec x y n).2.mpr h]
  rfl

theorem State.drew_vf_of_no_collision (h : ¬ ∃ c, Lights s x y n c ∧ s.cell c = true) :
    (s.drew x y n).readV 0xF#4 = 0 := by
  rw [State.drew_vf, Bool.eq_false_iff.mpr (mt (s.drawn_spec x y n).2.mp h)]
  rfl

end draw

/-- Settles O50. -/
theorem drwXorsTheSpriteAndFlagsCollision : Obligations.DrwXorsTheSpriteAndFlagsCollision := fun x y n s =>
  ⟨decodeWord_encode (.drw x y n), s.drew x y n, exec_drw x y n s,
    fun _ => ⟨State.drew_cell_of_lights, State.drew_cell_of_not_lights⟩,
    State.drew_vf_of_collision, State.drew_vf_of_no_collision, fun _ => State.drew_readV_other, rfl,
    pc_add_two s.pc, exec_keeps (exec_drw x y n s)⟩

theorem State.drawn_no_rows (s : State) (x y : RegIdx) : s.drawn x y 0x0#4 = (s.fb, false) := rfl

/-- Settles O51: with no row the display engine answers the old display and no collision. -/
theorem drwOfNoRowsOnlyClearsVfAndRaisesRedraw : Obligations.DrwOfNoRowsOnlyClearsVfAndRaisesRedraw := by
  intro x y s
  have e : s.drew x y 0x0#4 = (({ s with redraw := true } : State).writeFlag false).advance 2 := by
    rw [State.drew, s.drawn_no_rows]
  refine ⟨_, (exec_drw x y 0x0#4 s).trans (congrArg _ e), fun c => rfl, fun r => ?_, rfl, pc_add_two s.pc,
    keepsAllBut_overlay ((({ s with redraw := true } : State).writeFlag false).advance 2) s [.regs, .redraw]⟩
  exact State.readV_writeV _ vf r _

/-! ## The same draw twice -/

section twice

variable {s : State} {x y : RegIdx} {n : Nibble}

/-- A register as the second draw reads it: VF is what the first draw left. -/
theorem State.drew_readV_coordinate (r : RegIdx) :
    (s.drew x y n).readV r = if r = 0xF#4 then (s.drew x y n).readV 0xF#4 else s.readV r := by
  split_ifs with h
  · rw [h]
  · exact State.drew_readV_other h

/-- A draw leaves memory and I, so the sprite, as they were; the second draw's coordinates are the first state's, VF apart
(R178). -/
theorem lights_drew {c : Nat} : Lights (s.drew x y n) x y n c ↔
    SpriteLights s (if x = 0xF#4 then (s.drew x y n).readV 0xF#4 else s.readV x)
      (if y = 0xF#4 then (s.drew x y n).readV 0xF#4 else s.readV y) n c := by
  rw [← State.drew_readV_coordinate x, ← State.drew_readV_coordinate y]
  rfl

/-- Without VF as a coordinate the second draw hits the same cells. -/
theorem lights_drew_same (hx : x ≠ 0xF#4) (hy : y ≠ 0xF#4) {c : Nat} : Lights (s.drew x y n) x y n c ↔ Lights s x y n c := by
  rw [lights_drew, if_neg hx, if_neg hy, Lights]

/-- Each cell is inverted twice or never. -/
theorem State.drew_drew_cell (hx : x ≠ 0xF#4) (hy : y ≠ 0xF#4) (c : Nat) :
    ((s.drew x y n).drew x y n).cell c = s.cell c := by
  by_cases h : Lights s x y n c
  · rw [State.drew_cell_of_lights ((lights_drew_same hx hy).mpr h), State.drew_cell_of_lights h, Bool.not_not]
  · rw [State.drew_cell_of_not_lights (mt (lights_drew_same hx hy).mp h), State.drew_cell_of_not_lights h]

/-- The second draw collides exactly where the first one turned a cell on. -/
theorem second_collision_iff (hx : x ≠ 0xF#4) (hy : y ≠ 0xF#4) :
    (∃ c, Lights (s.drew x y n) x y n c ∧ (s.drew x y n).cell c = true) ↔ ∃ c, Lights s x y n c ∧ s.cell c = false := by
  refine exists_congr fun c => ?_
  rw [lights_drew_same hx hy]
  refine and_congr_right fun h => ?_
  rw [State.drew_cell_of_lights h, Bool.not_eq_true']

end twice

/-- Settles O52: where the second draw collides decides its VF; a set bit on a cell that was 1 at first makes the first draw
collide. -/
theorem drawingTwiceRestoresTheDisplay : Obligations.DrawingTwiceRestoresTheDisplay := by
  intro x y n s hx hy
  have second := second_collision_iff (s := s) (n := n) hx hy
  refine ⟨s.drew x y n, (s.drew x y n).drew x y n, exec_drw x y n s, exec_drw x y n _, State.drew_drew_cell hx hy,
    fun h => State.drew_vf_of_collision (second.mpr h), fun h => State.drew_vf_of_no_collision (mt second.mp h), ?_, ?_⟩
  · rintro ⟨c, hc, lit⟩
    exact State.drew_vf_of_collision ⟨c, (lights_drew_same hx hy).mpr hc, lit⟩
  · rintro ⟨c, hc⟩
    cases hs : s.cell c with
    | true => exact .inl (State.drew_vf_of_collision ⟨c, hc, hs⟩)
    | false => exact .inr (State.drew_vf_of_collision (second.mpr ⟨c, hc, hs⟩))

/-- Settles O56: the second draw is a draw of the state the first one left, where `lights_drew` says what it hits. -/
theorem aSecondDrawTakesTheFlagWhereVfIsACoordinate : Obligations.ASecondDrawTakesTheFlagWhereVfIsACoordinate := by
  intro x y n s
  refine ⟨s.drew x y n, (s.drew x y n).drew x y n, exec_drw x y n s, exec_drw x y n _, ?_, ?_⟩
  · rw [State.drew_vf]
    cases (s.drawn x y n).2 <;> decide
  · simp only [← lights_drew]
    exact ⟨fun _ => ⟨State.drew_cell_of_lights, State.drew_cell_of_not_lights⟩, State.drew_vf_of_collision,
      State.drew_vf_of_no_collision⟩

end Sys2Proof.Machine
end

section
/-! PROOFS. The timers and the keys: a step of a waiting core (spec/45_timers_keys.md R200), the timer instructions (R191 to
R193), the key skips (R194 to R196) and the start of a wait (R198). -/

namespace Sys2Proof.Machine

/-! ## A step of a waiting core -/

/-- The state a wait for `V[r]` ends in when it takes key `k`, before the tick (R200). -/
def State.keyTaken (s : State) (r : RegIdx) (k : Nibble) : State :=
  { (s.writeV r (k.setWidth 8)).advance 2 with await := none }

theorem State.keyTaken_readV (s : State) (r : RegIdx) (k : Nibble) (q : RegIdx) :
    (s.keyTaken r k).readV q = if q = r then k.setWidth 8 else s.readV q :=
  s.readV_writeV r q _

theorem State.keyWaitStep_of_lowest_edge {s : State} (r : RegIdx) {k : Nibble} (he : PressEdge s k.toNat)
    (hl : ∀ j < k.toNat, ¬ PressEdge s j) : s.keyWaitStep r = s.keyTaken r k := by
  unfold State.keyWaitStep
  rw [State.lowestEdge_eq_some.mpr ⟨he, hl⟩]
  rfl

/-- Settles O13: the step is `endStep` of `State.keyTaken` on an edge, and of the old state without one. -/
theorem waitingStepTakesTheLowestPressEdge : Obligations.WaitingStepTakesTheLowestPressEdge := by
  intro s r hf ha
  refine ⟨fun k he hl => ?_, fun hn => ?_⟩
  · refine ⟨(s.keyTaken r k).endStep, ?_, rfl, pc_add_two s.pc, s.keyTaken_readV r k, countDown_toNat s.dt,
      countDown_toNat s.st, rfl, keepsAllBut_overlay (s.keyTaken r k).endStep s [.regs, .await, .dt, .st, .kprev]⟩
    rw [step_waiting hf ha, State.keyWaitStep_of_lowest_edge r he hl]
  · refine ⟨s.endStep, ?_, rfl, countDown_toNat s.dt, countDown_toNat s.st, rfl, s.endStep_keeps⟩
    rw [step_waiting hf ha, State.keyWaitStep_of_no_edge r hn]

/-! ## The timer instructions -/

/-- Settles O53: each meaning is one write and PC + 2; the tick counts down what the instruction left in the timer. -/
theorem timerInstructionsMoveDtAndSt : Obligations.TimerInstructionsMoveDtAndSt := fun x s =>
  ⟨decodeWord_encode (.ldVxDt x), decodeWord_encode (.ldDtVx x), decodeWord_encode (.ldStVx x),
    ⟨_, rfl, fun r => s.readV_resultOnly x r s.dt, countDown_toNat s.dt, pc_add_two s.pc, exec_keeps (i := .ldVxDt x) rfl⟩,
    ⟨_, rfl, rfl, countDown_toNat (s.readV x), pc_add_two s.pc, exec_keeps (i := .ldDtVx x) rfl⟩,
    ⟨_, rfl, rfl, countDown_toNat (s.readV x), pc_add_two s.pc, exec_keeps (i := .ldStVx x) rfl⟩⟩

/-! ## The key instructions -/

/-- The key a skip tests is that of the low nibble of `V[x]` (R196). -/
theorem State.keyDown_keyOf (s : State) (x : RegIdx) :
    s.keyDown (s.keyOf x) = s.keys.getLsbD ((s.readV x).toNat % 16) := by
  rw [State.keyDown, State.keyOf, BitVec.toNat_setWidth]

/-- Settles O54: both are skips, on the level of that key. -/
theorem keySkipsTestTheKeyOfTheLowNibble : Obligations.KeySkipsTestTheKeyOfTheLowNibble := by
  intro x s
  refine ⟨decodeWord_encode (.skp x), decodeWord_encode (.sknp x), exec_skip rfl ?_, exec_skip rfl ?_⟩
  · rw [s.keyDown_keyOf]
  · rw [s.keyDown_keyOf, Bool.not_eq_true']

/-- Settles O55. -/
theorem ldVxKStartsTheWait : Obligations.LdVxKStartsTheWait := fun x s =>
  ⟨decodeWord_encode (.ldVxK x), { s with await := some x }, rfl, rfl, rfl, exec_keeps (i := .ldVxK x) rfl⟩

end Sys2Proof.Machine
end

section
/-! PROOFS. When a step carries the report of an unsupported word, and when it carries none (spec/60_exceptions.md R214). -/

namespace Sys2Proof.Machine

/-- A waiting core fetches nothing and so has nothing to report (R95, R214). -/
theorem State.report_waiting {s : State} {r : RegIdx} (ha : s.await = some r) : s.report = none :=
  if_neg fun ⟨_, hn⟩ => Option.some_ne_none r (ha.symm.trans hn)

/-- A word that decodes is not reported (R75, R214). -/
theorem State.report_decoded {s : State} {i : Instr} (hd : decodeWord s.fetchWord = some i) : s.report = none := by
  simp [State.report, hd]

/-- The report by the four cases of a step (R90): only the last, an unsupported word, has one. -/
theorem State.report_eq_some_iff {s : State} {w p : Word} : s.report = some (w, p) ↔
    s.fault = .running ∧ s.await = none ∧ w = s.fetchWord ∧ p = s.pc ∧ decodeWord w = none := by
  constructor
  · intro h
    by_cases hf : s.fault = .running
    · cases ha : s.await with
      | some r => simp [State.report_waiting ha] at h
      | none =>
        cases hd : decodeWord s.fetchWord with
        | some i => simp [State.report_decoded hd] at h
        | none =>
          rw [State.report_unsupported hf ha hd] at h
          obtain ⟨rfl, rfl⟩ := Prod.mk.inj (Option.some.inj h)
          exact ⟨hf, rfl, rfl, rfl, hd⟩
    · simp [State.report_halted hf] at h
  · rintro ⟨hf, ha, rfl, rfl, hd⟩
    exact State.report_unsupported hf ha hd

/-- Settles O12: a report tells that the word is unsupported, and the step on it is `State.unsupportedStep`, which keeps
FAULT. -/
theorem reportIsRaisedOnlyByAnUnsupportedWord : Obligations.ReportIsRaisedOnlyByAnUnsupportedWord := by
  refine fun s w p => ⟨State.report_eq_some_iff, fun h => ?_⟩
  obtain ⟨hf, ha, rfl, -, hd⟩ := State.report_eq_some_iff.mp h
  exact ⟨s.unsupportedStep, step_unsupported hf ha hd, s.unsupportedStep_pc, s.unsupportedStep_fault.trans hf, rfl⟩

end Sys2Proof.Machine
end

section
/-! PROOFS. The host's operations between steps: Load (spec/70_reset_and_hazards.md R247), KeysWrite (R249), ReadFB and AckRedraw
(R250). -/

namespace Sys2Proof.Machine

/-! ## Load -/

/-- The core with an image copied from 0x200 up (R247). -/
def State.loaded (s : State) (bytes : List Byte) : State :=
  { s with mem := s.mem.loadBytes Config.programBase bytes }

theorem wellFormedImage_iff {bytes : List Byte} : wellFormedImage bytes = true ↔ bytes.length ≤ 3584 :=
  decide_eq_true_iff

theorem System.load_short {y : System} {bytes : List Byte} (ho : y.loadOpen = true) (h : bytes.length ≤ 3584) :
    y.load bytes = .next { core := y.core.loaded bytes, loadOpen := false } := by
  rw [System.load, if_pos ho, if_pos (wellFormedImage_iff.mpr h), State.loaded]

theorem System.load_long {y : System} {bytes : List Byte} (ho : y.loadOpen = true) (h : 3584 < bytes.length) :
    y.load bytes = .fault .loadError := by
  rw [System.load, if_pos ho, if_neg (mt wellFormedImage_iff.mp (Nat.not_le_of_lt h))]

theorem System.load_closed {y : System} {bytes : List Byte} (ho : y.loadOpen = false) :
    y.load bytes = .refused .loadNotAllowed :=
  if_neg (Bool.eq_false_iff.mp ho)

/-- The image ends at most at the top of memory and lies above the glyph table, so each byte of it keeps its cell (R247). -/
theorem State.loaded_memRead_inside (s : State) {bytes : List Byte} (hl : bytes.length ≤ 3584) {k : Nat}
    (hk : k < bytes.length) : (s.loaded bytes).memRead (0x200 + k) = bytes[k] := by
  have above : ¬ InGlyphTable (0x200 + k) := by
    unfold InGlyphTable
    omega
  have fits : bytes.length ≤ Config.memSize := hl.trans (by decide)
  exact Memory.read_loadBytes_inside _ 0x200 k bytes hk fits (isGlyph_mod_eq_false.mpr above)

/-- No byte of the image goes to a cell below 0x200 or behind its last byte (R247). -/
theorem State.loaded_memRead_outside (s : State) {bytes : List Byte} (hl : bytes.length ≤ 3584) {a : Nat} (ha : a < 4096)
    (h : a < 0x200 ∨ 0x200 + bytes.length ≤ a) : (s.loaded bytes).memRead a = s.memRead a := by
  refine Memory.read_loadBytes_outside _ 0x200 a bytes fun k hk => ?_
  rw [Config.memSize]
  omega

/-- Load touches memory only (R247). -/
theorem State.loaded_keeps (s : State) (bytes : List Byte) : KeepsAllBut s (s.loaded bytes) [.mem] :=
  keepsAllBut_overlay (s.loaded bytes) s [.mem]

/-- Settles O28: Load answers by the length of the image while it is allowed, and `State.loaded` says what it copies. -/
theorem loadCopiesTheImageOrChangesNothing : Obligations.LoadCopiesTheImageOrChangesNothing := by
  intro y bytes
  refine ⟨System.load_long, fun ho hl => ?_, System.load_closed, fun z hz => ?_, fun z hz => ?_⟩
  · exact ⟨_, System.load_short ho hl, rfl, fun k hk => y.core.loaded_memRead_inside hl hk,
      fun a ha h => y.core.loaded_memRead_outside hl ha h, rfl, y.core.loaded_keeps bytes⟩
  · obtain ⟨t, -, rfl⟩ := System.step_next hz
    rfl
  · obtain rfl := Host.Outcome.next.inj hz
    rfl

/-! ## KeysWrite -/

/-- KeysWrite writes bit `k` of KEYS and no other (R249). -/
theorem State.keyDown_keysWrite (s : State) (k j : Nibble) (b : Bool) :
    (s.keysWrite k b).keyDown j = if j = k then b else s.keyDown j := by
  have hj : j.toNat < 16 := j.isLt
  unfold State.keyDown State.keysWrite
  by_cases h : j = k
  · subst h
    cases b <;> simp [hj]
  · have other : j.toNat ≠ k.toNat := mt BitVec.eq_of_toNat_eq h
    cases b <;> simp [h, hj, other]

/-- KeysWrite touches KEYS only, and so not KPREV (R249). -/
theorem State.keysWrite_keeps (s : State) (k : Nibble) (b : Bool) : KeepsAllBut s (s.keysWrite k b) [.keys] :=
  keepsAllBut_overlay (s.keysWrite k b) s [.keys]

/-- Settles O29. -/
theorem keysWriteSetsOneKey : Obligations.KeysWriteSetsOneKey := fun s k b =>
  ⟨(s.keyDown_keysWrite k k b).trans (if_pos rfl), fun j hj => (s.keyDown_keysWrite k j b).trans (if_neg hj),
    s.keysWrite_pc k b, s.keysWrite_keeps k b⟩

/-! ## ReadFB and AckRedraw -/

theorem State.readFB_length (s : State) : s.readFB.length = 2048 := by
  rw [State.readFB, List.length_map, List.length_range]

theorem State.readFB_getElem? (s : State) {c : Nat} (hc : c < 2048) : s.readFB[c]? = some (s.cell c) := by
  rw [State.readFB, List.getElem?_map, List.getElem?_range hc, Option.map_some]

/-- AckRedraw touches REDRAW only (R250). -/
theorem State.ackRedraw_keeps (s : State) : KeepsAllBut s s.ackRedraw [.redraw] :=
  keepsAllBut_overlay s.ackRedraw s [.redraw]

/-- Settles O30. -/
theorem readFbShowsTheCellsAndAckRedrawClearsTheFlag : Obligations.ReadFbShowsTheCellsAndAckRedrawClearsTheFlag := fun s =>
  ⟨s.readFB_length, fun _ hc => s.readFB_getElem? hc, rfl, s.ackRedraw_redraw, s.ackRedraw_pc, s.ackRedraw_keeps⟩

end Sys2Proof.Machine
end
